-- ==== Sys2Proof/Word.lean ====
section
/-! DEFINITION. The Word of CORE, the immediate of an instruction word, and the largest Word (`00_scope.md` R4, R5). -/

namespace Sys2Proof

/-- "the machine's 128-bit atomic value unit" (`00_scope.md` R4, row `W`; R5). -/
abbrev Word := BitVec 128

/-- The decoded immediate `var`, a 64-bit value (`00_scope.md` R8). -/
abbrev Imm := BitVec 64

/-- `MAXW = 2^128 - 1` (`00_scope.md` R5), as a Word. -/
def maxWord : Word := BitVec.allOnes 128

/-- The Word of a natural number: `zext_128` of it (`10_state.md` R30). -/
def wordOfNat (n : Nat) : Word := BitVec.ofNat 128 n

end Sys2Proof
end

