-- ==== Sys2Proof/Syntax.lean ====
section
/-! DEFINITION. The instructions: one constructor per row of spec/opcode_table.json, in the table's order, each with its
decoded immediate `var` (`30_encoding.md` R70, R75); and the opcodes, which name the instructions without it. -/

namespace Sys2Proof

/-- The 26 opcodes, in the order of the table of `30_encoding.md` R75. -/
inductive Opcode where
  | push | pop | dup
  | add | dif | mul | div | rem | and | or | xor | shl | shr
  | beq | bne | bgt | blt
  | fun_ | call | ret | loop | iter | exe
  | sto | lod | len
deriving DecidableEq, Repr

/-- A decoded instruction, the pair `(op, var)` of `30_encoding.md` R72. Every opcode carries its `var`, also the five
that ignore it (R77), because decode answers the pair for all of them. -/
inductive Instr where
  /-- `Push`: `var` literal Words follow (R120; in Warmup R106). -/
  | push (var : Imm)
  /-- `Pop`: `var` is a repeat count (R121). -/
  | pop (var : Imm)
  /-- `Dup`: `var` is a repeat count (R122). -/
  | dup (var : Imm)
  /-- `Add`: `var` is a repeat count (R130). -/
  | add (var : Imm)
  /-- `Dif`: `var` is a repeat count (R131). -/
  | dif (var : Imm)
  /-- `Mul`: `var` is a repeat count (R132). -/
  | mul (var : Imm)
  /-- `Div`: `var` is 0, or the divisor (R133). -/
  | div (var : Imm)
  /-- `Rem`: `var` is 0, or the divisor (R134). -/
  | rem (var : Imm)
  /-- `And`: `var` is a repeat count (R135). -/
  | and (var : Imm)
  /-- `Or`: `var` is a repeat count (R136). -/
  | or (var : Imm)
  /-- `Xor`: `var` is a repeat count (R137). -/
  | xor (var : Imm)
  /-- `Shl`: `var` is 0, or the shift amount (R138). -/
  | shl (var : Imm)
  /-- `Shr`: `var` is 0, or the shift amount (R139). -/
  | shr (var : Imm)
  /-- `Beq`: `var` is the pair count and the function index (R151). -/
  | beq (var : Imm)
  /-- `Bne`: `var` is the pair count and the function index (R152). -/
  | bne (var : Imm)
  /-- `Bgt`: `var` is the pair count and the function index (R153). -/
  | bgt (var : Imm)
  /-- `Blt`: `var` is the pair count and the function index (R154). -/
  | blt (var : Imm)
  /-- `Fun`: `var` is ignored (R105, R160). -/
  | fun_ (var : Imm)
  /-- `Call`: `var` is the function index (R162). -/
  | call (var : Imm)
  /-- `Ret`: `var` is ignored (R163). -/
  | ret (var : Imm)
  /-- `Loop`: `var` is the loop counter (R164). -/
  | loop (var : Imm)
  /-- `Iter`: `var` is ignored (R165). -/
  | iter (var : Imm)
  /-- `Exe`: `var` is ignored (R107, R167). -/
  | exe (var : Imm)
  /-- `Sto`: `var` is the data memory address (R180). -/
  | sto (var : Imm)
  /-- `Lod`: `var` is the data memory address (R181). -/
  | lod (var : Imm)
  /-- `Len`: `var` is ignored (R182). -/
  | len (var : Imm)
deriving DecidableEq, Repr

/-- Why the decoder rejects a Word, by name. -/
inductive DecodeError where
  /-- The tag, bits 127 to 64, names no opcode (`30_encoding.md` R72, R76). -/
  | illegalOp
deriving DecidableEq, Repr

end Sys2Proof
end

