-- ==== Sys2Proof/Config.lean ====
section
/-! DEFINITION. The parameters of CORE (`00_scope.md` R4). Those that are plain data are fields of Config, which State
carries so that every statement about all states holds for every setting (log 1); those that are values the spec leaves
open are opaque constants, of which nothing can be proved (logs 5, 6, 7). -/

namespace Sys2Proof

/-- `IMM_BITS`, "number of low immediate bits the decoder keeps": 32 or 64 (`00_scope.md` R4, D3). -/
inductive ImmBits where
  | w32
  | w64
deriving DecidableEq, Repr

/-- The number of bits a setting of `IMM_BITS` keeps. -/
def ImmBits.width : ImmBits → Nat
  | .w32 => 32
  | .w64 => 64

/-- `CALL_MARK`, "which call-stack length `Call` pushes" (`00_scope.md` R4, D5). -/
inductive CallMark where
  /-- The length after the return address is pushed. -/
  | after
  /-- The length before it. -/
  | before
deriving DecidableEq, Repr

/-- The capacity of a stack in Words; `none` is the spec's `unbounded` (`10_state.md` R30, D7). -/
abbrev Capacity := Option Nat

/-- The parameters that are plain data (`00_scope.md` R4). -/
structure Config where
  /-- `IMM_BITS` (D3). -/
  immBits : ImmBits
  /-- `ITER_REDIRECT` (D4). -/
  iterRedirect : Bool
  /-- `CALL_MARK` (D5). -/
  callMark : CallMark
  /-- `PSTACK_CAP` (D7). -/
  pstackCap : Capacity
  /-- `CSTACK_CAP` (D7). -/
  cstackCap : Capacity
  /-- `FSTACK_CAP` (D7). -/
  fstackCap : Capacity
  /-- `IMEM_CAP`, "largest `PLEN` the program store holds" (D8). -/
  imemCap : Nat
  /-- `TAG`: the opcode at position t has tag t (D1). -/
  tag : List Opcode
deriving DecidableEq, Repr

/-- "a positive natural number or `unbounded`" (`10_state.md` R30). -/
def Capacity.positive : Capacity → Bool
  | none => true
  | some k => 0 < k

/-- The settings the spec admits: positive capacities (R30), `IMEM_CAP <= 2^64` (D8), `TAG` a bijection from the 26
mnemonics onto 0..25 (D1). -/
def Config.wf (c : Config) : Bool :=
  Capacity.positive c.pstackCap && Capacity.positive c.cstackCap && Capacity.positive c.fstackCap &&
    decide (c.imemCap ≤ 2 ^ 64) && decide (c.tag.length = 26) && decide c.tag.Nodup

/-- The two shifts, as the argument `op` of `SHIFT_WIDE(op, value, amount)` (D9). -/
inductive ShiftOp where
  | shl
  | shr
deriving DecidableEq, Repr

/-- The result kinds of a step, a closed set (`60_exceptions.md` R200). -/
inductive ResultKind where
  | ok
  | endReached
  | noExec
  | illegalOp
  | stackUnderflow
  | writeOob
  | badCall
  | stackOverflow
deriving DecidableEq, Repr

/-- FREE VALUE, log 5: `SHIFT_WIDE`, "result of a shift by 128 or more", OPEN (`00_scope.md` R4, D9). No body: nothing
can be proved of its value. -/
opaque Config.shiftWide : ShiftOp → Word → Word → Word

/-- FREE VALUE, log 6: `LEN_UNDERFLOW`, "result of `Len` when `ebp` exceeds the pstack length", OPEN (`00_scope.md` R4,
D11); its arguments are the pstack length and `ebp`. -/
opaque Config.lenUnderflow : Nat → Word → Word

/-- FREE VALUE, log 7: the numbers of `RESULT_CODE`, "numeric code of each result kind on a status port", OPEN (`00_scope.md` R4),
"an injective map from the eight kinds" (D18). A permutation of the naturals of which nothing more can be proved; the code of
a kind is where it takes the kind's place in the table of R200 (`resultCode` of Machine/HostOps.lean), and every injective map
of the eight kinds arises so. -/
opaque Config.resultNumbers : Equiv.Perm Nat

end Sys2Proof
end

