-- ==== Sys2Proof/WellFormed.lean ====
section
/-! DEFINITION. Which instructions are well formed: those whose immediate the decoder can answer. -/

namespace Sys2Proof

/-- The immediate of an instruction. -/
def Instr.var : Instr → Imm
  | .push v => v
  | .pop v => v
  | .dup v => v
  | .add v => v
  | .dif v => v
  | .mul v => v
  | .div v => v
  | .rem v => v
  | .and v => v
  | .or v => v
  | .xor v => v
  | .shl v => v
  | .shr v => v
  | .beq v => v
  | .bne v => v
  | .bgt v => v
  | .blt v => v
  | .fun_ v => v
  | .call v => v
  | .ret v => v
  | .loop v => v
  | .iter v => v
  | .exe v => v
  | .sto v => v
  | .lod v => v
  | .len v => v

/-- The one check: "only the low `IMM_BITS` bits can be non-zero" (`00_scope.md` R8). The spec gives an instruction no
other field (`30_encoding.md` R70) and calls every value of `var` legal (R77). -/
def WellFormed (c : Config) (i : Instr) : Bool :=
  decide (i.var.toNat < 2 ^ c.immBits.width)

end Sys2Proof
end

