-- ==== Sys2Proof/Decode.lean ====
section
/-! DEFINITION. The decoder, total on any Word (`30_encoding.md` R70, R72, R73), the default tag map (R75) and the default
configuration (`00_scope.md` R4), and after them the encoder (R71) and the view by words of the opcode table's numbering. -/

namespace Sys2Proof

/-- The default `TAG`: position t holds the opcode of tag t (`30_encoding.md` R75, D1; log 4). -/
def defaultTag : List Opcode :=
  [.push, .pop, .dup, .add, .dif, .mul, .div, .rem, .and, .or, .xor, .shl, .shr,
   .beq, .bne, .bgt, .blt, .fun_, .call, .ret, .loop, .iter, .exe, .sto, .lod, .len]

/-- The default configuration: `IMM_BITS` 32, `ITER_REDIRECT` false, `CALL_MARK` after, the tags of R75 (`00_scope.md` R4;
logs 3, 4). DESIGN CHOICE for the OPEN rows: stacks unbounded, with which "the behaviour is exactly the source's"
(`10_state.md` R30), and `IMEM_CAP` at its upper bound 2^64 (D8); log 2. -/
def Config.default : Config where
  immBits := .w32
  iterRedirect := false
  callMark := .after
  pstackCap := none
  cstackCap := none
  fstackCap := none
  imemCap := 2 ^ 64
  tag := defaultTag

/-- Bits 127 to 64 (`30_encoding.md` R70). -/
def tagField (w : Word) : BitVec 64 := w.extractLsb' 64 64

/-- Bits 63 to 0 (`30_encoding.md` R70). -/
def immField (w : Word) : BitVec 64 := w.extractLsb' 0 64

/-- The low `IMM_BITS` bits of an immediate, zero-extended to 64 (`30_encoding.md` R73). -/
def keepImm (c : Config) (v : BitVec 64) : Imm :=
  match c.immBits with
  | .w32 => (v.setWidth 32).setWidth 64
  | .w64 => v

/-- The instruction of an opcode and its `var`. -/
def Opcode.instr : Opcode → Imm → Instr
  | .push => .push
  | .pop => .pop
  | .dup => .dup
  | .add => .add
  | .dif => .dif
  | .mul => .mul
  | .div => .div
  | .rem => .rem
  | .and => .and
  | .or => .or
  | .xor => .xor
  | .shl => .shl
  | .shr => .shr
  | .beq => .beq
  | .bne => .bne
  | .bgt => .bgt
  | .blt => .blt
  | .fun_ => .fun_
  | .call => .call
  | .ret => .ret
  | .loop => .loop
  | .iter => .iter
  | .exe => .exe
  | .sto => .sto
  | .lod => .lod
  | .len => .len

/-- The opcode of an instruction. -/
def Instr.opcode : Instr → Opcode
  | .push _ => .push
  | .pop _ => .pop
  | .dup _ => .dup
  | .add _ => .add
  | .dif _ => .dif
  | .mul _ => .mul
  | .div _ => .div
  | .rem _ => .rem
  | .and _ => .and
  | .or _ => .or
  | .xor _ => .xor
  | .shl _ => .shl
  | .shr _ => .shr
  | .beq _ => .beq
  | .bne _ => .bne
  | .bgt _ => .bgt
  | .blt _ => .blt
  | .fun_ _ => .fun_
  | .call _ => .call
  | .ret _ => .ret
  | .loop _ => .loop
  | .iter _ => .iter
  | .exe _ => .exe
  | .sto _ => .sto
  | .lod _ => .lod
  | .len _ => .len

/-- `decode(w)` (`30_encoding.md` R72): all 64 bits of the tag are compared, a tag of 26 or more is `IllegalOp`
(R76), and nothing but the Word and the configuration is read. -/
def decode (c : Config) (w : Word) : Except DecodeError Instr :=
  if 26 ≤ (tagField w).toNat then .error .illegalOp
  else
    match c.tag[(tagField w).toNat]? with
    | some op => .ok (op.instr (keepImm c (immField w)))
    | none => .error .illegalOp

/-- `TAG(kind)`: the number of an opcode (`00_scope.md` R4). -/
def tagOf (c : Config) (op : Opcode) : Nat := c.tag.idxOf op

/-- `encode(kind, immediate)`: "packs `kind` (cast to a 64-bit tag) into the high 64 bits and `immediate` into the low
64 bits" (`30_encoding.md` R71). All 64 bits of the immediate are kept. -/
def encode (c : Config) (i : Instr) : Word := BitVec.ofNat 64 (tagOf c i.opcode) ++ i.var

/-- The Words of an instruction whose bits are `w`, numbered as spec/opcode_table.json numbers them: bit 0 is the least
significant bit of the first Word, and a later Word's bits count on from it. `nbits` bits make `nbits / 128` Words,
rounded up, at least one. -/
def wordsOfBits (nbits w : Nat) : List Word :=
  (List.range (max 1 ((nbits + 127) / 128))).map fun k => BitVec.ofNat 128 (w >>> (128 * k))

/-- What the decoder reads from an instruction whose bits are `w`, under the default configuration. The decoder reads
the first Word; the Words after it are the literals of a `Push` (`30_encoding.md` R79), which decode does not look at. -/
def decodeTableWord (nbits w : Nat) : Option Instr :=
  match wordsOfBits nbits w with
  | [] => none
  | first :: _ =>
    match decode Config.default first with
    | .ok i => some i
    | .error _ => none

end Sys2Proof
end

