-- ==== Sys2Proof/Machine/State.lean ====
section
/-! DEFINITION. The state of CORE (`10_state.md` R20 to R29), its reset value (R39), its updates, and the reasons a step
can stop (`60_exceptions.md` R200). -/

namespace Sys2Proof.Machine

/-- The phase machine has two states (`10_state.md` R24). -/
inductive Phase where
  /-- "the pre-pass that discovers function entry points without executing program logic." -/
  | warmup
  /-- "the execution phase following Warmup, where all opcodes take full effect." -/
  | recital
deriving DecidableEq, Repr

/-- "an ordered sequence of Words" (`10_state.md` R25 to R27, R30), held TOP FIRST: the head is the most recently pushed
element. The spec writes a stack bottom first, which is its own convention (`10_state.md` section 5); log 9. -/
abbrev Stack := List Word

/-- A Word of the data memory at an address. CORE's smallest unit is the Word (`20_memory.md` R51) and no byte order exists
(R56), so a cell holds a Word; log 8. -/
abbrev Cell := Nat × Word

/-- The data memory: cells in one canonical form, `Memory.wf` of Machine/Ops.lean. -/
abbrev Memory := List Cell

/-- The state of CORE: the eight entries of the spec's machine-state list (`10_state.md`), and the configuration. -/
structure State where
  /-- The instruction pointer (`10_state.md` R21). -/
  ip : Word
  /-- The base pointer (`10_state.md` R23). -/
  ebp : Word
  /-- The phase (`10_state.md` R24). -/
  phase : Phase
  /-- `P`, the program stack (`10_state.md` R25). -/
  pstack : Stack
  /-- `C`, the call stack (`10_state.md` R26). -/
  cstack : Stack
  /-- `F`, the function table (`10_state.md` R27). -/
  fstack : Stack
  /-- `IMem`, the installed program; its length is `PLEN` (`10_state.md` R28). -/
  imem : List Word
  /-- `Mem`, the data memory (`10_state.md` R28). -/
  mem : Memory
  /-- The MODEL's own field: the parameters of `00_scope.md` R4, which R11 makes "a parameter of the step function"; log 1. -/
  config : Config
deriving DecidableEq, Repr

/-- The table of `10_state.md` R39; the configuration is the default one (logs 2, 3, 4). -/
def State.reset : State where
  ip := 0
  ebp := 0
  phase := .warmup
  pstack := []
  cstack := []
  fstack := []
  imem := []
  mem := []
  config := Config.default

/-- `s` with another instruction pointer. -/
def State.setIp (s : State) (v : Word) : State := { s with ip := v }

/-- `s` with another base pointer. -/
def State.setEbp (s : State) (v : Word) : State := { s with ebp := v }

/-- `s` with another phase. -/
def State.setPhase (s : State) (v : Phase) : State := { s with phase := v }

/-- `s` with another program stack. -/
def State.setPstack (s : State) (v : Stack) : State := { s with pstack := v }

/-- `s` with another call stack. -/
def State.setCstack (s : State) (v : Stack) : State := { s with cstack := v }

/-- `s` with another function table. -/
def State.setFstack (s : State) (v : Stack) : State := { s with fstack := v }

/-- `s` with another installed program. -/
def State.setImem (s : State) (v : List Word) : State := { s with imem := v }

/-- `s` with another data memory. -/
def State.setMem (s : State) (v : Memory) : State := { s with mem := v }

/-- Why a step returned something other than `Ok` (`60_exceptions.md` R200). Each reason carries the State the step left:
"The effects of the statements the pseudocode ran before the `raise` stay; nothing is rolled back" (R204, D6; log 10). -/
inductive Fault where
  /-- `EndReached`, raised by `Exe` in Recital, always (`44_control.md` R167). It is the spec's SUCCESS sentinel, "not a true
  failure"; it stands here because it ends the run. Safe: the spec states both the kind and the state left. -/
  | endReached (left : State)
  /-- `NoExec`, raised by the step cycle when `ip >= PLEN` (`40_dispatch_warmup.md` R100). Safe: nothing has changed. -/
  | noExec (left : State)
  /-- `IllegalOp`, raised by the step cycle when the tag of the fetched Word is 26 or more (`30_encoding.md` R76). Safe:
  nothing has changed. -/
  | illegalOp (left : State)
  /-- `StackUnderflow`, raised by a pop of an empty `P` or `C`, by `Exe` in Warmup on an empty `F`, and by `Push` in Recital
  when the program ends before its literals do (`60_exceptions.md` R201). The kind is safe; the state left is unsafe,
  because it rests on the spec's own decisions D6 and D13 (log 10). -/
  | stackUnderflow (left : State)
  /-- `WriteOob`, raised by `Sto` and `Lod` when `var >= 1024` (`45_memory_ops.md` R180, R181). The kind is safe; the state
  left is unsafe (D6, D12; log 10). -/
  | writeOob (left : State)
  /-- `BadCall`, raised by `Call` and a taken branch when the index is not below `len(F)` or the target not below `PLEN`
  (`44_control.md` R161). The kind is safe; the state left is unsafe (D6; log 10). -/
  | badCall (left : State)
  /-- `StackOverflow`, raised by a push on a full stack (`10_state.md` R31). Unsafe: the kind is the spec's own, not the
  source's (D7; log 2). -/
  | stackOverflow (left : State)
deriving DecidableEq, Repr

/-- What the model gives no meaning. No step of this model answers with either constructor. -/
inductive Refusal where
  /-- An instruction without a meaning, by its mnemonic; raised by no arm of exec: all 26 have theirs. Safe. -/
  | notModelled (mnemonic : String)
  /-- The host operation `read` on a program longer than `IMEM_CAP`, which "cannot be installed; what the interface does
  then is outside this spec" (`70_reset_and_hazards.md` R241, U6; log 15). Raised by `hostRead` alone. Safe. -/
  | programTooLong
deriving DecidableEq, Repr

end Sys2Proof.Machine
end

