-- ==== Sys2Proof/Machine/Ops.lean ====
section
/-! DEFINITION. The named operations the meanings are made of: raising a result kind, the stack engine
(`10_state.md` R30 to R36), the two memories (`20_memory.md` R52 to R55), the instruction pointer (R21, R22),
repetition (`41_stack_ops.md` R119), the call operation (`44_control.md` R161) and phase dispatch (R102). -/

namespace Sys2Proof.Machine

/-- What a piece of pseudocode answers: a value, or the `raise` that ended the step. -/
abbrev Res (α : Type) := Except Fault α

/-! ## Raising a result kind -/

/-- `raise K` (`00_scope.md` R7, `60_exceptions.md` R204): the step ends with kind `K` and the state as it stands. This is
all of exception entry: "A fault saves no state, changes no mode, masks nothing, and transfers control nowhere" (R206),
and there is no return from one. -/
def raise {α : Type} (kind : State → Fault) (s : State) : Res α := .error (kind s)

/-- The result of a step: `Ok` with the next state, or the raise that ended it (`40_dispatch_warmup.md` R100). -/
def finish : Res State → Host.Outcome State Fault Refusal
  | .ok s => .next s
  | .error f => .fault f

/-- The result kind of a raise (`60_exceptions.md` R200). -/
def Fault.kind : Fault → ResultKind
  | .endReached _ => .endReached
  | .noExec _ => .noExec
  | .illegalOp _ => .illegalOp
  | .stackUnderflow _ => .stackUnderflow
  | .writeOob _ => .writeOob
  | .badCall _ => .badCall
  | .stackOverflow _ => .stackOverflow

/-- The state a raise left (`60_exceptions.md` R204). -/
def Fault.left : Fault → State
  | .endReached s => s
  | .noExec s => s
  | .illegalOp s => s
  | .stackUnderflow s => s
  | .writeOob s => s
  | .badCall s => s
  | .stackOverflow s => s

/-! ## The stack engine -/

/-- `push(S, v)` on a stack of capacity `cap`: `none` when `len(S)` equals the capacity (`10_state.md` R31). -/
def stackPush (cap : Capacity) (S : Stack) (v : Word) : Option Stack :=
  if cap = some S.length then none else some (v :: S)

/-- `pop(S)`: the top and the rest; `none` on an empty stack (`10_state.md` R32). -/
def stackPop : Stack → Option (Word × Stack)
  | [] => none
  | v :: S => some (v, S)

/-- `top0`: the top, or the Word 0 on an empty stack (`10_state.md` R33). -/
def stackTop0 : Stack → Word
  | [] => 0
  | v :: _ => v

/-- `S[i]`: "the element at distance `i` from the bottom, defined only for `i < len(S)`" (`10_state.md` R34). -/
def stackIndex (S : Stack) (i : Nat) : Option Word := S.reverse[i]?

/-- `len(S)` as a Word (`10_state.md` R30). -/
def stackLen (S : Stack) : Word := wordOfNat S.length

/-- `push(P, v)`. -/
def pushP (s : State) (v : Word) : Res State :=
  match stackPush s.config.pstackCap s.pstack v with
  | some P => .ok (s.setPstack P)
  | none => raise .stackOverflow s

/-- `push(C, v)`. -/
def pushC (s : State) (v : Word) : Res State :=
  match stackPush s.config.cstackCap s.cstack v with
  | some C => .ok (s.setCstack C)
  | none => raise .stackOverflow s

/-- `push(F, v)`. -/
def pushF (s : State) (v : Word) : Res State :=
  match stackPush s.config.fstackCap s.fstack v with
  | some F => .ok (s.setFstack F)
  | none => raise .stackOverflow s

/-- `pop(P)`. -/
def popP (s : State) : Res (Word × State) :=
  match stackPop s.pstack with
  | some (v, P) => .ok (v, s.setPstack P)
  | none => raise .stackUnderflow s

/-- `pop(C)`. -/
def popC (s : State) : Res (Word × State) :=
  match stackPop s.cstack with
  | some (v, C) => .ok (v, s.setCstack C)
  | none => raise .stackUnderflow s

/-- `last(F)`: the top of `F`, which is not removed (`10_state.md` R35). -/
def lastF (s : State) : Res Word :=
  match stackPop s.fstack with
  | some (v, _) => .ok v
  | none => raise .stackUnderflow s

/-! ## The program store and the instruction pointer -/

/-- `PLEN` (`10_state.md` R28). -/
def State.plen (s : State) : Nat := s.imem.length

/-- `IFetch(a)`: `none` for `a >= PLEN`, where each caller raises its own kind (`20_memory.md` R52). -/
def iFetch (s : State) (a : Word) : Option Word := s.imem[a.toNat]?

/-- `ip <- ip + k`, modulo 2^128 (`10_state.md` R22, D20). -/
def State.skip (s : State) (k : Word) : State := s.setIp (s.ip + k)

/-- `ip <- ip + 1` (`40_dispatch_warmup.md` R100). -/
def State.advance (s : State) : State := s.skip 1

/-- `a0`, "offset of the instruction word itself" (`40_dispatch_warmup.md` R100). The step cycle has advanced `ip` by 1
before an instruction's own semantics start, so it is `ip - 1`; exact modulo 2^128 (log 11). -/
def State.a0 (s : State) : Word := s.ip - 1

/-! ## The data memory -/

/-- The size of the data memory in Words (`00_scope.md` R4, row `MEM_WORDS`). -/
def memWords : Nat := 1024

/-- What an address no cell lists reads as: the reset value of every Word of `Mem` (`10_state.md` R28, R39). -/
def unlistedWord : Word := 0

/-- The Word at an address (`20_memory.md` R53). -/
def Memory.read : Memory → Nat → Word
  | [], _ => unlistedWord
  | (k, w) :: m, a => if k = a then w else Memory.read m a

/-- The cell (a, v) in front of a memory that lists only higher addresses; no cell for the value an unlisted address
reads as. -/
def Memory.cons (a : Nat) (v : Word) (m : Memory) : Memory :=
  if v = unlistedWord then m else (a, v) :: m

/-- `Mem[a] <- v`, and no other location changes (`20_memory.md` R54). Keeps the canonical form. -/
def Memory.write : Memory → Nat → Word → Memory
  | [], a, v => Memory.cons a v []
  | (k, w) :: m, a, v =>
    if a < k then Memory.cons a v ((k, w) :: m)
    else if a = k then Memory.cons a v m
    else (k, w) :: Memory.write m a v

/-- Every cell's address is at least `lo`, addresses strictly rise, every address is below 1024, and no cell holds what
an unlisted address reads as. -/
def Memory.wfFrom : Nat → Memory → Bool
  | _, [] => true
  | lo, (k, w) :: m => decide (lo ≤ k) && decide (k < memWords) && decide (w ≠ unlistedWord) && Memory.wfFrom (k + 1) m

/-- The canonical form of the data memory. -/
def Memory.wf (m : Memory) : Bool := Memory.wfFrom 0 m

/-- `MemRead(a, 1)` with its caller's bounds test: "For `a >= 1024` the caller (`Lod`) raises `WriteOob` before any
read" (`20_memory.md` R53, R55). -/
def memRead (s : State) (a : Word) : Res Word :=
  if memWords ≤ a.toNat then raise .writeOob s else .ok (s.mem.read a.toNat)

/-- `MemWrite(a, 1, v)` with its caller's bounds test (`20_memory.md` R54, R55). -/
def memWrite (s : State) (a : Word) (v : Word) : Res State :=
  if memWords ≤ a.toNat then raise .writeOob s else .ok (s.setMem (s.mem.write a.toNat v))

/-! ## Sequencing -/

/-- `repeat n times:` "runs its body `n` times in sequence, zero times when `n = 0`" (`00_scope.md` R7, `41_stack_ops.md`
R119); a raise in a pass ends it, with the effects of the passes before in the state it leaves. -/
def repeatTimes (body : State → Res State) : Nat → State → Res State
  | 0, s => .ok s
  | n + 1, s => do
    let s ← body s
    repeatTimes body n s

/-- The marker `Call` pushes, for a call stack of length `n` before the call: `n + 1` or `n` (`44_control.md` R161, D5). -/
def callMarker (c : Config) (n : Nat) : Word :=
  match c.callMark with
  | .after => wordOfNat (n + 1)
  | .before => wordOfNat n

/-- `do_call(i)` (`44_control.md` R161). Both `BadCall` tests come before any push. -/
def doCall (i : Imm) (s : State) : Res State :=
  match stackIndex s.fstack i.toNat with
  | none => raise .badCall s
  | some t =>
    if s.plen ≤ t.toNat then raise .badCall s
    else do
      let n := s.cstack.length
      let s ← pushC s s.ip
      let s ← pushC s (callMarker s.config n)
      return s.setIp t

/-- Dispatch on the phase at the start of the step (`40_dispatch_warmup.md` R100, R102). -/
def byPhase (s : State) (warmup recital : State → Res State) : Host.Outcome State Fault Refusal :=
  match s.phase with
  | .warmup => finish (warmup s)
  | .recital => finish (recital s)

/-- The Warmup meaning of the 23 opcodes that are neither `Fun`, `Push` nor `Exe`: nothing (`40_dispatch_warmup.md`
R108). -/
def ignoredInWarmup (s : State) : Res State := .ok s

end Sys2Proof.Machine
end

