-- ==== Sys2Proof/Machine/Alu.lean ====
section
/-! DEFINITION. The arithmetic of CORE on unsigned 128-bit Words (`00_scope.md` R6, `42_arith_logic.md` R138 to R140). -/

namespace Sys2Proof.Machine

/-- The exact result narrowed by saturation at `MAXW` (`00_scope.md` R6). -/
def saturate (n : Nat) : Word := if 2 ^ 128 ≤ n then maxWord else wordOfNat n

/-- `sat_add(a, b) = min(a + b, MAXW)` (`00_scope.md` R6). -/
def satAdd (a b : Word) : Word := saturate (a.toNat + b.toNat)

/-- `sat_mul(a, b) = min(a * b, MAXW)` (`00_scope.md` R6). -/
def satMul (a b : Word) : Word := saturate (a.toNat * b.toNat)

/-- `absdiff(a, b) = a - b if a >= b else b - a` (`00_scope.md` R6). -/
def absDiff (a b : Word) : Word := if b ≤ a then a - b else b - a

/-- `sat_dec(c) = 0 if c = 0 else c - 1` (`00_scope.md` R6). -/
def satDec (c : Word) : Word := if c = 0 then 0 else c - 1

/-- `MAXW if a = 0 else b / a`, where `b` is the dividend (`42_arith_logic.md` R133, R140). -/
def divide (b a : Word) : Word := if a = 0 then maxWord else b / a

/-- `MAXW if a = 0 else b mod a`, where `b` is the dividend (`42_arith_logic.md` R134, R140). -/
def remainder (b a : Word) : Word := if a = 0 then maxWord else b % a

/-- `shl(v, n)`: `(v * 2^n) mod 2^128` for `n < 128`, `SHIFT_WIDE` from 128 up (`42_arith_logic.md` R138; log 5). -/
def shiftLeft (v n : Word) : Word := if n.toNat < 128 then v <<< n.toNat else Config.shiftWide .shl v n

/-- `shr(v, n)`: `floor(v / 2^n)` for `n < 128`, `SHIFT_WIDE` from 128 up (`42_arith_logic.md` R139; log 5). -/
def shiftRight (v n : Word) : Word := if n.toNat < 128 then v >>> n.toNat else Config.shiftWide .shr v n

/-- What `Len` pushes for a pstack of length `n`: `n - ebp`, or `LEN_UNDERFLOW(n, ebp)` when `ebp` is larger
(`45_memory_ops.md` R182; log 6). -/
def lenResult (n : Nat) (ebp : Word) : Word :=
  if ebp.toNat ≤ n then wordOfNat (n - ebp.toNat) else Config.lenUnderflow n ebp

end Sys2Proof.Machine
end

