-- ==== Sys2Proof/Machine/Operands.lean ====
section
/-! DEFINITION. The operand forms: `var` widened to a Word (`00_scope.md` R8), the two-operand pass, which pops `a` and
then `b` (`10_state.md` R36, `42_arith_logic.md` R141), its repetition (`41_stack_ops.md` R119), and the form that takes its
second operand from `P` when `var = 0` and from `var` otherwise (`42_arith_logic.md` R133, R134, R138, R139). -/

namespace Sys2Proof.Machine

/-- `zext_128(var)` (`00_scope.md` R8, D28). -/
def zext (var : Imm) : Word := var.setWidth 128

/-- `a <- pop(P); b <- pop(P); push(P, f(a, b))`. -/
def binaryPass (f : Word → Word → Word) (s : State) : Res State := do
  let (a, s) ← popP s
  let (b, s) ← popP s
  pushP s (f a b)

/-- `repeat var times` a two-operand pass. -/
def binaryRepeated (f : Word → Word → Word) (var : Imm) (s : State) : Res State :=
  repeatTimes (binaryPass f) var.toNat s

/-- `var = 0`: `a <- pop(P); b <- pop(P)` and push `f b a`, the deeper Word first. `var != 0`: `x <- pop(P)` and push
`f x var`. -/
def zeroOrOperand (f : Word → Word → Word) (var : Imm) (s : State) : Res State :=
  if var = 0 then do
    let (a, s) ← popP s
    let (b, s) ← popP s
    pushP s (f b a)
  else do
    let (x, s) ← popP s
    pushP s (f x (zext var))

end Sys2Proof.Machine
end

