-- ==== Sys2Proof/Machine/Arith.lean ====
section
/-! DEFINITION. `Add`, `Dif`, `Mul`, `Div`, `Rem`, `And`, `Or`, `Xor`, `Shl`, `Shr` (`42_arith_logic.md` R130 to R142; in Warmup
`40_dispatch_warmup.md` R108). -/

namespace Sys2Proof.Machine

/-- `Add` (R130). -/
def execAdd (var : Imm) (s : State) : Host.Outcome State Fault Refusal :=
  byPhase s ignoredInWarmup (binaryRepeated satAdd var)

/-- `Dif` (R131). -/
def execDif (var : Imm) (s : State) : Host.Outcome State Fault Refusal :=
  byPhase s ignoredInWarmup (binaryRepeated absDiff var)

/-- `Mul` (R132). -/
def execMul (var : Imm) (s : State) : Host.Outcome State Fault Refusal :=
  byPhase s ignoredInWarmup (binaryRepeated satMul var)

/-- `Div` (R133). -/
def execDiv (var : Imm) (s : State) : Host.Outcome State Fault Refusal :=
  byPhase s ignoredInWarmup (zeroOrOperand divide var)

/-- `Rem` (R134). -/
def execRem (var : Imm) (s : State) : Host.Outcome State Fault Refusal :=
  byPhase s ignoredInWarmup (zeroOrOperand remainder var)

/-- `And` (R135). -/
def execAnd (var : Imm) (s : State) : Host.Outcome State Fault Refusal :=
  byPhase s ignoredInWarmup (binaryRepeated (fun a b => a &&& b) var)

/-- `Or` (R136). -/
def execOr (var : Imm) (s : State) : Host.Outcome State Fault Refusal :=
  byPhase s ignoredInWarmup (binaryRepeated (fun a b => a ||| b) var)

/-- `Xor` (R137). -/
def execXor (var : Imm) (s : State) : Host.Outcome State Fault Refusal :=
  byPhase s ignoredInWarmup (binaryRepeated (fun a b => a ^^^ b) var)

/-- `Shl` (R138). -/
def execShl (var : Imm) (s : State) : Host.Outcome State Fault Refusal :=
  byPhase s ignoredInWarmup (zeroOrOperand shiftLeft var)

/-- `Shr` (R139). -/
def execShr (var : Imm) (s : State) : Host.Outcome State Fault Refusal :=
  byPhase s ignoredInWarmup (zeroOrOperand shiftRight var)

end Sys2Proof.Machine
end

