-- ==== Sys2Proof/Machine/Flags.lean ====
section
/-! DEFINITION. CORE has no status flags (`10_state.md` R29). The one flag computation of the spec is the "should branch"
flag, local to a step of a branch instruction: its conditions (`43_branch.md` R151 to R154) and its compare passes (R150). -/

namespace Sys2Proof.Machine

/-- "Beq: set if any pair unequal" (`43_branch.md` R151; log 17). -/
def condBeq (a b : Word) : Bool := decide (a ≠ b)

/-- "Bne: set if any pair equal" (`43_branch.md` R152; log 17). -/
def condBne (a b : Word) : Bool := decide (a = b)

/-- "Bgt/Blt: set if `a<=b` for any pair", unsigned (`43_branch.md` R153; log 17). -/
def condBgt (a b : Word) : Bool := decide (a.toNat ≤ b.toNat)

/-- The same condition as `Bgt` (`43_branch.md` R154, D22; log 17). -/
def condBlt (a b : Word) : Bool := decide (a.toNat ≤ b.toNat)

/-- One compare pass: `a <- pop(P); b <- pop(P); if cond(a, b): flag <- true; push(P, a)` (`43_branch.md` R150). -/
def comparePass (cond : Word → Word → Bool) (flag : Bool) (s : State) : Res (Bool × State) := do
  let (a, s) ← popP s
  let (b, s) ← popP s
  let s ← pushP s a
  return (flag || cond a b, s)

/-- `repeat n times` a compare pass; "once set it stays set", and all passes run (`43_branch.md` R150). -/
def comparePasses (cond : Word → Word → Bool) : Nat → Bool → State → Res (Bool × State)
  | 0, flag, s => .ok (flag, s)
  | n + 1, flag, s => do
    let (flag, s) ← comparePass cond flag s
    comparePasses cond n flag s

end Sys2Proof.Machine
end

