-- ==== Sys2Proof/Machine/Branch.lean ====
section
/-! DEFINITION. `Beq`, `Bne`, `Bgt`, `Blt` (`43_branch.md` R150 to R155; in Warmup `40_dispatch_warmup.md` R108). -/

namespace Sys2Proof.Machine

/-- `branch(cond, var)` (`43_branch.md` R150): `var` compare passes, one more pop, and if the flag is set, skip the Word
after the branch word and call function `var`. -/
def branch (cond : Word → Word → Bool) (var : Imm) (s : State) : Res State := do
  let (flag, s) ← comparePasses cond var.toNat false s
  let (_, s) ← popP s
  if flag then doCall var s.advance else return s

/-- `Beq` (R151). -/
def execBeq (var : Imm) (s : State) : Host.Outcome State Fault Refusal :=
  byPhase s ignoredInWarmup (branch condBeq var)

/-- `Bne` (R152). -/
def execBne (var : Imm) (s : State) : Host.Outcome State Fault Refusal :=
  byPhase s ignoredInWarmup (branch condBne var)

/-- `Bgt` (R153). -/
def execBgt (var : Imm) (s : State) : Host.Outcome State Fault Refusal :=
  byPhase s ignoredInWarmup (branch condBgt var)

/-- `Blt` (R154). -/
def execBlt (var : Imm) (s : State) : Host.Outcome State Fault Refusal :=
  byPhase s ignoredInWarmup (branch condBlt var)

end Sys2Proof.Machine
end

