-- ==== Sys2Proof/Machine/Control.lean ====
section
/-! DEFINITION. `Fun`, `Call`, `Ret`, `Loop`, `Iter`, `Exe` (`44_control.md` R160 to R168; in Warmup `40_dispatch_warmup.md` R105,
R107, R108). -/

namespace Sys2Proof.Machine

/-- `Fun`: in Warmup push the offset of the `Fun` word itself on `F` (R105, C5); in Recital nothing (R160). -/
def execFun (_var : Imm) (s : State) : Host.Outcome State Fault Refusal :=
  byPhase s (fun s => pushF s s.a0) (fun s => .ok s)

/-- `Call` (R162). -/
def execCall (var : Imm) (s : State) : Host.Outcome State Fault Refusal :=
  byPhase s ignoredInWarmup (doCall var)

/-- `ebp <- pop(C); ip <- pop(C)` (R163): with one Word on `C`, `ebp` is written before the raise. -/
def returnFromCall (s : State) : Res State := do
  let (marker, s) ← popC s
  let s := s.setEbp marker
  let (target, s) ← popC s
  return s.setIp target

/-- `Ret` (R163). -/
def execRet (_var : Imm) (s : State) : Host.Outcome State Fault Refusal :=
  byPhase s ignoredInWarmup returnFromCall

/-- `push(C, ip); push(C, var)` (R164). -/
def enterLoop (var : Imm) (s : State) : Res State := do
  let s ← pushC s s.ip
  pushC s (zext var)

/-- `Loop` (R164). -/
def execLoop (var : Imm) (s : State) : Host.Outcome State Fault Refusal :=
  byPhase s ignoredInWarmup (enterLoop var)

/-- Pop counter and address; while the decremented counter is not 0, push both back, and with `ITER_REDIRECT` load `ip`
(R165, D4). -/
def iterate (s : State) : Res State := do
  let (c, s) ← popC s
  let (a, s) ← popC s
  if satDec c ≠ 0 then do
    let s ← pushC s a
    let s ← pushC s (satDec c)
    return if s.config.iterRedirect then s.setIp a else s
  else return s

/-- `Iter` (R165). -/
def execIter (_var : Imm) (s : State) : Host.Outcome State Fault Refusal :=
  byPhase s ignoredInWarmup iterate

/-- `phase <- Recital; ip <- last(F)`: the phase is written before the raise on an empty `F` (R107, D13). -/
def enterRecital (s : State) : Res State := do
  let s := s.setPhase .recital
  let t ← lastF s
  return s.setIp t

/-- `Exe`: in Warmup enter Recital (R107); in Recital `EndReached`, always (R167). -/
def execExe (_var : Imm) (s : State) : Host.Outcome State Fault Refusal :=
  byPhase s enterRecital (fun s => raise .endReached (s.setPhase .recital))

end Sys2Proof.Machine
end

