-- ==== Sys2Proof/Machine/Stacks.lean ====
section
/-! DEFINITION. `Push`, `Pop`, `Dup` (`41_stack_ops.md` R120 to R122; in Warmup `40_dispatch_warmup.md` R106, R108). -/

namespace Sys2Proof.Machine

/-- One pass of `Push` in Recital: read the Word at `ip`, push it whole, advance (`41_stack_ops.md` R120). -/
def pushLiteral (s : State) : Res State :=
  match iFetch s s.ip with
  | none => raise .stackUnderflow s
  | some v => do
    let s ← pushP s v
    return s.advance

/-- One pass of `Pop` (`41_stack_ops.md` R121). -/
def discardTop (s : State) : Res State := do
  let (_, s) ← popP s
  return s

/-- One pass of `Dup` (`41_stack_ops.md` R122). -/
def duplicateTop (s : State) : Res State := pushP s (stackTop0 s.pstack)

/-- `Push`: in Warmup skip `var` Words with no bounds test (R106); in Recital push `var` literals (R120). -/
def execPush (var : Imm) (s : State) : Host.Outcome State Fault Refusal :=
  byPhase s (fun s => .ok (s.skip (zext var))) (repeatTimes pushLiteral var.toNat)

/-- `Pop` (R121). -/
def execPop (var : Imm) (s : State) : Host.Outcome State Fault Refusal :=
  byPhase s ignoredInWarmup (repeatTimes discardTop var.toNat)

/-- `Dup` (R122). -/
def execDup (var : Imm) (s : State) : Host.Outcome State Fault Refusal :=
  byPhase s ignoredInWarmup (repeatTimes duplicateTop var.toNat)

end Sys2Proof.Machine
end

