-- ==== Sys2Proof/Machine/Store.lean ====
section
/-! DEFINITION. `Sto`, `Lod`, `Len` (`45_memory_ops.md` R180 to R182; in Warmup `40_dispatch_warmup.md` R108). -/

namespace Sys2Proof.Machine

/-- The one addressing mode, "absolute by immediate" (R180). -/
def effectiveAddress (var : Imm) : Word := zext var

/-- `v <- pop(P)`, then the bounds test, then the write (R180, D12). -/
def storeTop (var : Imm) (s : State) : Res State := do
  let (v, s) ← popP s
  memWrite s (effectiveAddress var) v

/-- `Sto` (R180). -/
def execSto (var : Imm) (s : State) : Host.Outcome State Fault Refusal :=
  byPhase s ignoredInWarmup (storeTop var)

/-- The bounds test, then the read, then the push (R181). -/
def loadWord (var : Imm) (s : State) : Res State := do
  let v ← memRead s (effectiveAddress var)
  pushP s v

/-- `Lod` (R181). -/
def execLod (var : Imm) (s : State) : Host.Outcome State Fault Refusal :=
  byPhase s ignoredInWarmup (loadWord var)

/-- Push the pstack length, taken before the push, less `ebp` (R182, D29). -/
def pushDepth (s : State) : Res State := pushP s (lenResult s.pstack.length s.ebp)

/-- `Len` (R182). -/
def execLen (_var : Imm) (s : State) : Host.Outcome State Fault Refusal :=
  byPhase s ignoredInWarmup pushDepth

end Sys2Proof.Machine
end

