-- ==== Sys2Proof/Machine/Dispatch.lean ====
section
/-! DEFINITION. The dispatcher: one arm per instruction, each one call of its meaning. `ip` has already been advanced past
the instruction word by the step cycle (`40_dispatch_warmup.md` R100). -/

namespace Sys2Proof.Machine

def exec (i : Instr) (s : State) : Host.Outcome State Fault Refusal :=
  match i with
  | .push var => Sys2Proof.Machine.execPush var s
  | .pop var => Sys2Proof.Machine.execPop var s
  | .dup var => Sys2Proof.Machine.execDup var s
  | .add var => Sys2Proof.Machine.execAdd var s
  | .dif var => Sys2Proof.Machine.execDif var s
  | .mul var => Sys2Proof.Machine.execMul var s
  | .div var => Sys2Proof.Machine.execDiv var s
  | .rem var => Sys2Proof.Machine.execRem var s
  | .and var => Sys2Proof.Machine.execAnd var s
  | .or var => Sys2Proof.Machine.execOr var s
  | .xor var => Sys2Proof.Machine.execXor var s
  | .shl var => Sys2Proof.Machine.execShl var s
  | .shr var => Sys2Proof.Machine.execShr var s
  | .beq var => Sys2Proof.Machine.execBeq var s
  | .bne var => Sys2Proof.Machine.execBne var s
  | .bgt var => Sys2Proof.Machine.execBgt var s
  | .blt var => Sys2Proof.Machine.execBlt var s
  | .fun_ var => Sys2Proof.Machine.execFun var s
  | .call var => Sys2Proof.Machine.execCall var s
  | .ret var => Sys2Proof.Machine.execRet var s
  | .loop var => Sys2Proof.Machine.execLoop var s
  | .iter var => Sys2Proof.Machine.execIter var s
  | .exe var => Sys2Proof.Machine.execExe var s
  | .sto var => Sys2Proof.Machine.execSto var s
  | .lod var => Sys2Proof.Machine.execLod var s
  | .len var => Sys2Proof.Machine.execLen var s

end Sys2Proof.Machine
end

