-- ==== Sys2Proof/Machine/Fetch.lean ====
section
/-! DEFINITION. Fetching and decoding the instruction at `ip` (`40_dispatch_warmup.md` R100), and placing Words in the program
store (for State.withFetchWord). -/

namespace Sys2Proof.Machine

/-- The first half of the step cycle (R100): `NoExec` when `ip >= PLEN`, `IllegalOp` when the Word at `ip` does not decode;
nothing is changed on either. -/
def fetchInstr (s : State) : Res Instr :=
  match iFetch s s.ip with
  | none => raise .noExec s
  | some w =>
    match decode s.config w with
    | .ok i => .ok i
    | .error .illegalOp => raise .illegalOp s

/-- A program with the Words `ws` at offset `a` and what it held elsewhere; a program that ends before `a` is filled up to
it with Words 0. -/
def placeWords (program : List Word) (a : Nat) (ws : List Word) : List Word :=
  program.take a ++ List.replicate (a - program.length) 0 ++ ws ++ program.drop (a + ws.length)

end Sys2Proof.Machine
end

