-- ==== Sys2Proof/Machine/Step.lean ====
section
/-! DEFINITION. The step cycle (`40_dispatch_warmup.md` R100). -/

namespace Sys2Proof.Machine

/-- `step()`: fetch and decode at `ip`, "Advance `ip` by 1 unconditionally before dispatch", dispatch (R100). A fetch or a
decode that fails changes nothing. -/
def step (s : State) : Host.Outcome State Fault Refusal :=
  match fetchInstr s with
  | .ok i => exec i s.advance
  | .error f => .fault f

/-- `s` with the instruction whose bits are `w` stored in the program store at `ip`, where step fetches its next
instruction; nothing else changes. It stands for the host's `read` (`70_reset_and_hazards.md` R241; log 12). -/
def State.withFetchWord (s : State) (nbits w : Nat) : State :=
  s.setImem (placeWords s.imem s.ip.toNat (wordsOfBits nbits w))

end Sys2Proof.Machine
end

