-- ==== Sys2Proof/Machine/Assembler.lean ====
section
/-! DEFINITION. The assembler's contract (`30_encoding.md` R90 to R94): text to Words. The assembler is outside CORE
(`00_scope.md` R3 (1)) and no step calls it; it is here because the spec states what it accepts and emits. Text is a list of
characters. What the spec leaves undefined (U13, N12) answers `unspecified`; log 19. -/

namespace Sys2Proof.Machine

/-- The two format errors (`30_encoding.md` R93). -/
inductive Expected where
  | number
  | opcode
deriving DecidableEq, Repr

/-- What assembling answers. -/
inductive Assembled where
  /-- The Words, offset 0 first. -/
  | words (ws : List Word)
  /-- A format error with the offending token; `none` for a trailing mnemonic, where there is no token to report (N14). -/
  | formatError (expected : Expected) (token : Option (List Char))
  /-- A token the spec says nothing of (U13). -/
  | unspecified (token : List Char)
deriving DecidableEq, Repr

/-- What a token is. -/
inductive TokenClass where
  | mnemonic (op : Opcode)
  | number (n : Nat)
  | other
  | unspecified
deriving DecidableEq, Repr

/-- The assembler spellings, all lower case (`30_encoding.md` R75, R90, D23). -/
def spellings : List (List Char × Opcode) :=
  [(['p', 'u', 's', 'h'], .push), (['p', 'o', 'p'], .pop), (['d', 'u', 'p'], .dup), (['a', 'd', 'd'], .add),
   (['d', 'i', 'f'], .dif), (['m', 'u', 'l'], .mul), (['d', 'i', 'v'], .div), (['r', 'e', 'm'], .rem),
   (['a', 'n', 'd'], .and), (['o', 'r'], .or), (['x', 'o', 'r'], .xor), (['s', 'h', 'l'], .shl), (['s', 'h', 'r'], .shr),
   (['b', 'e', 'q'], .beq), (['b', 'n', 'e'], .bne), (['b', 'g', 't'], .bgt), (['b', 'l', 't'], .blt),
   (['f', 'u', 'n'], .fun_), (['c', 'a', 'l', 'l'], .call), (['r', 'e', 't'], .ret), (['l', 'o', 'o', 'p'], .loop),
   (['i', 't', 'e', 'r'], .iter), (['e', 'x', 'e'], .exe), (['s', 't', 'o'], .sto), (['l', 'o', 'd'], .lod),
   (['l', 'e', 'n'], .len)]

/-- The value of a digit in a radix: decimal digits, and `a` to `f` in hexadecimal. -/
def digitValue (radix : Nat) (c : Char) : Option Nat :=
  if '0'.toNat ≤ c.toNat ∧ c.toNat ≤ '9'.toNat then some (c.toNat - '0'.toNat)
  else if radix = 16 ∧ 'a'.toNat ≤ c.toNat ∧ c.toNat ≤ 'f'.toNat then some (c.toNat - 'a'.toNat + 10)
  else none

/-- The number that digits write, most significant first, after the value `acc`. -/
def digitsValue (radix : Nat) : Nat → List Char → Option Nat
  | acc, [] => some acc
  | acc, c :: cs =>
    match digitValue radix c with
    | some d => digitsValue radix (acc * radix + d) cs
    | none => none

/-- "a number (decimal, or hex prefixed `0x`)" (`30_encoding.md` R90). -/
def numberValue : List Char → Option Nat
  | [] => none
  | '0' :: 'x' :: c :: cs => digitsValue 16 0 (c :: cs)
  | c :: cs => digitsValue 10 0 (c :: cs)

/-- Does a token look like a number form the spec leaves out (a digit first, or a sign and a digit)? -/
def looksNumeric : List Char → Bool
  | [] => false
  | ['+'] => false
  | ['-'] => false
  | '+' :: c :: _ => c.isDigit
  | '-' :: c :: _ => c.isDigit
  | c :: _ => c.isDigit

/-- The class of a token: a mnemonic, a number, a form the spec leaves open (U13: other number forms, mnemonics with
upper-case letters), or anything else. -/
def classify (t : List Char) : TokenClass :=
  match spellings.lookup t with
  | some op => .mnemonic op
  | none =>
    match numberValue t with
    | some n => .number n
    | none =>
      if looksNumeric t || (spellings.lookup (t.map Char.toLower)).isSome then .unspecified else .other

/-- Tokens separated by white space (`30_encoding.md` R90); `acc` is the token read so far, reversed. -/
def splitTokens : List Char → List Char → List (List Char)
  | [], [] => []
  | [], acc => [acc.reverse]
  | c :: cs, [] => if c.isWhitespace then splitTokens cs [] else splitTokens cs [c]
  | c :: cs, a :: acc => if c.isWhitespace then (a :: acc).reverse :: splitTokens cs [] else splitTokens cs (c :: a :: acc)

/-- A Word in front of what the rest assembles to. -/
def Assembled.prepend (w : Word) : Assembled → Assembled
  | .words ws => .words (w :: ws)
  | .formatError e t => .formatError e t
  | .unspecified t => .unspecified t

/-- Assembles tokens, with the mnemonic that waits for its number, if any (`30_encoding.md` R91 to R93). An immediate is
below 2^64 and a literal below 2^128 (D23). -/
def assembleTokens (c : Config) : Option Opcode → List (List Char) → Assembled
  | none, [] => .words []
  | some _, [] => .formatError .number none
  | none, t :: ts =>
    match classify t with
    | .mnemonic op => assembleTokens c (some op) ts
    | .number n => if n < 2 ^ 128 then (assembleTokens c none ts).prepend (wordOfNat n) else .unspecified t
    | .other => .formatError .opcode (some t)
    | .unspecified => .unspecified t
  | some op, t :: ts =>
    match classify t with
    | .mnemonic _ => .formatError .number (some t)
    | .number n =>
      if n < 2 ^ 64 then (assembleTokens c none ts).prepend (encode c (op.instr (BitVec.ofNat 64 n))) else .unspecified t
    | .other => .formatError .number (some t)
    | .unspecified => .unspecified t

/-- Assembler text to Words (`30_encoding.md` R90). -/
def assemble (c : Config) (text : List Char) : Assembled := assembleTokens c none (splitTokens text [])

end Sys2Proof.Machine
end

