-- ==== Sys2Proof/Machine/HostOps.lean ====
section
/-! DEFINITION. The host operations (`70_reset_and_hazards.md` R240 to R248): reset, `read`, `step` as a transaction, `steps(n)`,
`run`. They add no state to CORE (D30). -/

namespace Sys2Proof.Machine

/-- Reset is the construction of a new machine of the same build: every entry of R39 at its reset value, the parameters
kept (`70_reset_and_hazards.md` R240, D16; log 16). -/
def hostReset (s : State) : State := { State.reset with config := s.config }

/-- `read(program)`: installs the program and changes nothing else (`70_reset_and_hazards.md` R241, D15). A program
longer than `IMEM_CAP` is refused (U6; log 15). -/
def hostRead (program : List Word) (s : State) : Host.Outcome State Fault Refusal :=
  if program.length ≤ s.config.imemCap then .next (s.setImem program) else .refused .programTooLong

/-- The launch of a run: reset, then `read` (`70_reset_and_hazards.md` R247). -/
def launch (program : List Word) (s : State) : Host.Outcome State Fault Refusal := hostRead program (hostReset s)

/-- `step()` as the host sees it: "one atomic transition from a machine state to a machine state and a result kind"
(`00_scope.md` R10, `70_reset_and_hazards.md` R242). A step after the end of a run starts from the state the last step left
(`60_exceptions.md` R208). `none` on a refusal, which no step answers. -/
def hostStep (s : State) : Option (ResultKind × State) :=
  match step s with
  | .next t => some (.ok, t)
  | .fault f => some (f.kind, f.left)
  | .refused _ => none

/-- The place of a result kind in the table of `60_exceptions.md` R200. -/
def kindPlace : ResultKind → Nat
  | .ok => 0
  | .endReached => 1
  | .noExec => 2
  | .illegalOp => 3
  | .stackUnderflow => 4
  | .writeOob => 5
  | .badCall => 6
  | .stackOverflow => 7

/-- `RESULT_CODE`, an injective map from the eight result kinds to numbers that are not known (`00_scope.md` R4, D18; log 7). -/
def resultCode (k : ResultKind) : Nat := Config.resultNumbers (kindPlace k)

/-- The code of the step's result kind on a status port (`60_exceptions.md` R200, D18; log 7). -/
def hostStatus (s : State) : Option Nat := (hostStep s).map fun r => resultCode r.1

/-- `steps(n)`: "executes up to `n` steps, stopping early and propagating the first failure"
(`70_reset_and_hazards.md` R243). -/
def hostSteps : Nat → State → Host.Outcome State Fault Refusal
  | 0, s => .next s
  | n + 1, s =>
    match step s with
    | .next t => hostSteps n t
    | .fault f => .fault f
    | .refused r => .refused r

/-- `run()` under fuel: the first result that is not `Ok`, with the state it left; `none` when the fuel ends first
(`70_reset_and_hazards.md` R244, R256). The trace is out of scope (D26). -/
def hostRun : Nat → State → Option Fault
  | 0, _ => none
  | n + 1, s =>
    match step s with
    | .next t => hostRun n t
    | .fault f => some f
    | .refused _ => none

end Sys2Proof.Machine
end

