-- ==== Sys2Proof/Safety.lean ====
section
/-! DEFINITION. The terms statements use: what a step changes, when a run is successful (`60_exceptions.md` R207), and the
invariants that rule out states no run reaches. -/

namespace Sys2Proof.Machine

/-- The run from `s` ends within `n` steps in the result `f` (`60_exceptions.md` R207). -/
def RunEnds (s : State) (n : Nat) (f : Fault) : Prop := hostRun n s = some f

/-- "The run ended successfully if and only if that result is `EndReached`" (`60_exceptions.md` R207). -/
def Fault.success (f : Fault) : Bool := decide (f.kind = .endReached)

/-- No run from `s` ends in anything but success; it need not end (`70_reset_and_hazards.md` R256). -/
def SafeFrom (s : State) : Prop := ∀ n f, RunEnds s n f → f.success = true

/-- A stack has `n` free places. -/
def hasRoom (cap : Capacity) (S : Stack) (n : Nat) : Bool :=
  match cap with
  | none => true
  | some k => decide (S.length + n ≤ k)

/-- The length of a stack is within its capacity (`10_state.md` R30). -/
def withinCap (cap : Capacity) (S : Stack) : Bool := hasRoom cap S 0

/-- All three stacks are within their capacities. -/
abbrev StacksFit (s : State) : Prop :=
  withinCap s.config.pstackCap s.pstack = true ∧ withinCap s.config.cstackCap s.cstack = true ∧
    withinCap s.config.fstackCap s.fstack = true

/-- The installed program fits the program store, which holds at most 2^64 Words (D8). -/
abbrev ProgramFits (s : State) : Prop := s.plen ≤ s.config.imemCap ∧ s.config.imemCap ≤ 2 ^ 64

/-- The data memory is in canonical form and lists no address from 1024 up. -/
abbrev MemoryCanonical (s : State) : Prop := s.mem.wf = true

/-- The Word at an offset of the installed program is a `Fun` word. -/
def isFunWord (s : State) (t : Word) : Bool :=
  match iFetch s t with
  | none => false
  | some w =>
    match decode s.config w with
    | .ok i => decide (i.opcode = .fun_)
    | .error _ => false

/-- Every entry of the function table is the offset of a `Fun` word of the installed program
(`44_control.md` R161). -/
abbrev EntriesAreFuns (s : State) : Prop := s.fstack.all (isFunWord s) = true

/-- The function table lists its entries in text order, the newest first here (`10_state.md` R27), and in Warmup all of
them lie before the Word that is decoded next (`40_dispatch_warmup.md` R104). -/
abbrev EntriesInTextOrder (s : State) : Prop :=
  s.fstack.Pairwise (fun newer older => older.toNat < newer.toNat) ∧
    (s.phase = .warmup → (s.fstack.all fun t => decide (t.toNat < s.ip.toNat)) = true)

/-- What a run never leaves: stacks within their capacities, a program that fits, a canonical data memory, and a function
table of `Fun` words. -/
abbrev MachineInv (s : State) : Prop := StacksFit s ∧ ProgramFits s ∧ MemoryCanonical s ∧ EntriesAreFuns s

/-- The bound of `10_state.md` R22, `PLEN + 2^64 + 2`, on the instruction pointer and on every Word an instruction can
load it with. -/
abbrev PointersBelowWrap (s : State) : Prop :=
  s.ip.toNat < s.plen + 2 ^ 64 + 2 ∧ (s.cstack.all fun w => decide (w.toNat < s.plen + 2 ^ 64 + 2)) = true ∧
    (s.fstack.all fun t => decide (t.toNat < s.plen)) = true

end Sys2Proof.Machine
end

