-- ==== Sys2Proof/Certificates/Slice0/Obligations.lean ====
section
/-! DEFINITION. The statements for the provers. The stacks are written top first. "Recital" and "Warmup" name the two phases. -/

namespace Sys2Proof.Claims

open Sys2Proof.Machine

/-! ## Shapes shared by several statements -/

/-- The state a taken branch or a call continues in: the return offset `r` and the marker on the call stack, `ip` at the
target (`44_control.md` R161). -/
def called (s : State) (r target : Word) : State :=
  { s with
    ip := target
    cstack := BitVec.ofNat 128 (if s.config.callMark = .after then s.cstack.length + 1 else s.cstack.length) ::
      r :: s.cstack }

/-- All that `do_call(i)` does from a state `s`, where `run` is what the instruction answers: it completes, or raises
`BadCall` with nothing pushed, or `StackOverflow` at its first or second push (`44_control.md` R161, R162). The function
table is indexed from its bottom (`10_state.md` R34). -/
def CallsFunction (i : Imm) (s : State) (run : Host.Outcome State Fault Refusal) : Prop :=
  (s.fstack.length ≤ i.toNat → run = .fault (.badCall s)) ∧
  (∀ target, s.fstack.reverse[i.toNat]? = some target →
    (s.plen ≤ target.toNat → run = .fault (.badCall s)) ∧
    (target.toNat < s.plen → hasRoom s.config.cstackCap s.cstack 2 = true → run = .next (called s s.ip target)) ∧
    (target.toNat < s.plen → s.config.cstackCap = some s.cstack.length → run = .fault (.stackOverflow s)) ∧
    (target.toNat < s.plen → s.config.cstackCap = some (s.cstack.length + 1) →
      run = .fault (.stackOverflow { s with cstack := s.ip :: s.cstack })))

/-- A repeated two-operand instruction in Recital (`41_stack_ops.md` R119, `42_arith_logic.md` R141, R142): `var` passes fold
the Words beneath the top into the top, from the nearest down; with too few Words `P` is emptied and `StackUnderflow`
is raised; with `var = 0` nothing happens. -/
def FoldsIntoTop (instr : Imm → Instr) (f : Word → Word → Word) : Prop :=
  ∀ (v : Imm) (s : State), s.phase = .recital → withinCap s.config.pstackCap s.pstack = true →
    (v = 0 → exec (instr v) s = .next s) ∧
    (∀ a P, s.pstack = a :: P → v.toNat ≤ P.length →
      exec (instr v) s = .next { s with pstack := (P.take v.toNat).foldl f a :: P.drop v.toNat }) ∧
    (v ≠ 0 → s.pstack.length ≤ v.toNat → exec (instr v) s = .fault (.stackUnderflow { s with pstack := [] }))

/-- A zero-or-operand instruction in Recital (`42_arith_logic.md` R133, R134, R138, R139, R141): with `var = 0` the top is the
second operand of `f` and the Word beneath it the first; with `var != 0` the top is the first and `var` the second. -/
def TakesOperandFromStackOrVar (instr : Imm → Instr) (f : Word → Word → Word) : Prop :=
  ∀ (v : Imm) (s : State), s.phase = .recital → withinCap s.config.pstackCap s.pstack = true →
    (v = 0 → ∀ a b P, s.pstack = a :: b :: P → exec (instr v) s = .next { s with pstack := f b a :: P }) ∧
    (v = 0 → s.pstack.length < 2 → exec (instr v) s = .fault (.stackUnderflow { s with pstack := [] })) ∧
    (v ≠ 0 → ∀ x P, s.pstack = x :: P →
      exec (instr v) s = .next { s with pstack := f x (BitVec.ofNat 128 v.toNat) :: P }) ∧
    (v ≠ 0 → s.pstack = [] → exec (instr v) s = .fault (.stackUnderflow s))

/-- A compare-and-call instruction in Recital (`43_branch.md` R150, R155): the top is compared with each of the `var` Words
beneath it; `var + 1` Words leave `P`; if no pair meets the condition nothing else happens, and if one does, `ip` skips a
Word and function `var` is called; with too few Words `P` is emptied and `StackUnderflow` is raised, with no call. -/
def CallsWhenAnyPair (instr : Imm → Instr) (cond : Word → Word → Prop) : Prop :=
  ∀ (v : Imm) (s : State), s.phase = .recital → withinCap s.config.pstackCap s.pstack = true →
    (∀ a P, s.pstack = a :: P → v.toNat ≤ P.length →
      ((∀ b ∈ P.take v.toNat, ¬ cond a b) → exec (instr v) s = .next { s with pstack := P.drop v.toNat }) ∧
      ((∃ b ∈ P.take v.toNat, cond a b) →
        CallsFunction v { s with pstack := P.drop v.toNat, ip := s.ip + 1 } (exec (instr v) s))) ∧
    (s.pstack.length ≤ v.toNat → exec (instr v) s = .fault (.stackUnderflow { s with pstack := [] }))

/-- What a step may have changed, by the instruction `i` it ran and the phase it ran in: each piece of state is written
only by the instructions whose rules write it. Memory is compared through the read of one Word. -/
def ChangesOnlyWhatItsRuleWrites (i : Instr) (s t : State) : Prop :=
  t.config = s.config ∧ t.imem = s.imem ∧
  (t.phase = s.phase ∨ (i.opcode = .exe ∧ s.phase = .warmup)) ∧
  (t.ebp = s.ebp ∨ (i.opcode = .ret ∧ s.phase = .recital)) ∧
  (t.fstack = s.fstack ∨ (i.opcode = .fun_ ∧ s.phase = .warmup)) ∧
  (t.cstack = s.cstack ∨
    (i.opcode ∈ [Opcode.beq, .bne, .bgt, .blt, .call, .ret, .loop, .iter] ∧ s.phase = .recital)) ∧
  (t.pstack = s.pstack ∨
    (i.opcode ∉ [Opcode.fun_, .call, .ret, .loop, .iter, .exe] ∧ s.phase = .recital)) ∧
  (t.ip = s.ip ∨ i.opcode = .push ∨ (i.opcode = .exe ∧ s.phase = .warmup) ∨
    (i.opcode ∈ [Opcode.beq, .bne, .bgt, .blt, .call, .ret] ∧ s.phase = .recital) ∨
    (i.opcode = .iter ∧ s.phase = .recital ∧ s.config.iterRedirect = true)) ∧
  (∀ a : Nat, t.mem.read a = s.mem.read a ∨
    (i.opcode = .sto ∧ s.phase = .recital ∧ a = (effectiveAddress i.var).toNat))

/-- The next step fetches a Word that decodes to `i`. -/
def NextIs (s : State) (i : Instr) : Prop := ∃ w, iFetch s s.ip = some w ∧ decode s.config w = .ok i

/-- `n` steps of the machine lead from `s` to `t`, all of them `Ok`, and none of them runs the instruction `i` in Recital. -/
def stepsWithout (i : Instr) : Nat → State → State → Prop
  | 0, s, t => t = s
  | n + 1, s, t => ∃ u, ¬ (s.phase = .recital ∧ NextIs s i) ∧ step s = .next u ∧ stepsWithout i n u t

/-- How the linear scan of Warmup ends (`40_dispatch_warmup.md` R109). -/
inductive ScanEnd where
  /-- An `Exe` after the `Fun` words at these offsets, the last one first. -/
  | entered (last : Nat) (before : List Nat)
  | exeWithoutFun
  | pastTheEnd
  | illegalTag

/-- The linear scan of a program, independent of the machine: it decodes the Word at each offset it visits, notes the
`Fun` words, steps over the literals of a `Push`, and ends at the first `Exe` (`40_dispatch_warmup.md` R104 to R109). -/
def scan (c : Config) (program : List Word) : Nat → Nat → List Nat → Option ScanEnd
  | 0, _, _ => none
  | n + 1, offset, funs =>
    match program[offset]? with
    | none => some .pastTheEnd
    | some w =>
      match decode c w with
      | .error _ => some .illegalTag
      | .ok i =>
        match i.opcode with
        | .exe =>
          match funs with
          | [] => some .exeWithoutFun
          | last :: before => some (.entered last before)
        | .fun_ => scan c program n (offset + 1) (offset :: funs)
        | .push => scan c program n (offset + 1 + i.var.toNat) funs
        | _ => scan c program n (offset + 1) funs

end Sys2Proof.Claims

open Sys2Proof Sys2Proof.Machine Sys2Proof.Claims

/-! ## Encoding -/

/-- R74, first two sentences' content for both settings of `IMM_BITS`: decode after encode gives the opcode back and the
immediate modulo `2^IMM_BITS`, so a well-formed instruction comes back whole. -/
def Obligations.DecodeInvertsEncode : Prop :=
  ∀ c : Config, c.wf = true → ∀ i : Instr,
    (WellFormed c i = true → decode c (encode c i) = .ok i) ∧
    decode c (encode c i) = .ok (i.opcode.instr (BitVec.ofNat 64 (i.var.toNat % 2 ^ c.immBits.width)))

/-- R74, last sentence (an inference the spec marks): encode after decode gives the Word back exactly when the immediate
bits the decoder drops are 0. -/
def Obligations.EncodeInvertsDecodeWhenDroppedBitsZero : Prop :=
  ∀ c : Config, c.wf = true → ∀ (w : Word) (i : Instr), decode c w = .ok i →
    (encode c i = w ↔ (w.toNat % 2 ^ 64) / 2 ^ c.immBits.width = 0)

/-- R72: a tag of at most 25, over all 64 bits, decodes to the opcode of that tag with the low `IMM_BITS` bits, and any other
tag is `IllegalOp`. -/
def Obligations.DecodeAnswersByTheWholeTag : Prop :=
  ∀ c : Config, c.wf = true → ∀ w : Word,
    (w.toNat / 2 ^ 64 ≤ 25 → ∃ op, tagOf c op = w.toNat / 2 ^ 64 ∧
      decode c w = .ok (op.instr (BitVec.ofNat 64 (w.toNat % 2 ^ c.immBits.width)))) ∧
    (26 ≤ w.toNat / 2 ^ 64 → decode c w = .error .illegalOp)

/-- R75: the default tag of every mnemonic (the numbers are the spec's decision D1, log 4), one Word of each row decoded with the
immediate 7. -/
def Obligations.EveryTableRowDecodes : Prop :=
  (∀ op : Opcode, op ∈ defaultTag) ∧
  defaultTag.map (fun op => decode Config.default (BitVec.ofNat 128 (tagOf Config.default op * 2 ^ 64 + 7))) =
    [.ok (.push 7), .ok (.pop 7), .ok (.dup 7), .ok (.add 7), .ok (.dif 7), .ok (.mul 7), .ok (.div 7), .ok (.rem 7),
     .ok (.and 7), .ok (.or 7), .ok (.xor 7), .ok (.shl 7), .ok (.shr 7), .ok (.beq 7), .ok (.bne 7), .ok (.bgt 7),
     .ok (.blt 7), .ok (.fun_ 7), .ok (.call 7), .ok (.ret 7), .ok (.loop 7), .ok (.iter 7), .ok (.exe 7), .ok (.sto 7),
     .ok (.lod 7), .ok (.len 7)]

/-- Words written out in `95_test_vectors.md` (section 2; the `Beq` Word is of Program 3, section 4) and what they decode to under the default configuration (logs 3, 4). -/
def Obligations.WrittenOutWordsDecode : Prop :=
  decode Config.default 0x00000000000000000000000000000002 = .ok (.push 2) ∧
  decode Config.default 0x00000000000000040000000000000001 = .ok (.dif 1) ∧
  decode Config.default 0x000000000000000D0000000000000001 = .ok (.beq 1) ∧
  decode Config.default 0x00000000000000120000000000000000 = .ok (.call 0) ∧
  decode Config.default 0x00000000000000170000000100000005 = .ok (.sto 5) ∧
  decode Config.default 0x0000000000000019FFFFFFFFFFFFFFFF = .ok (.len 0xFFFFFFFF) ∧
  decode Config.default 0x000000000000001A0000000000000000 = .error .illegalOp ∧
  decode Config.default 0xFFFFFFFFFFFFFFFF0000000000000000 = .error .illegalOp

/-! ## The step cycle -/

/-- A step runs the decoded instruction: where the Word at `ip` decodes to `i`, the step is exec of `i` at the state with `ip`
advanced by 1. -/
def Obligations.StepRunsTheDecodedInstruction : Prop :=
  ∀ (s : State) (w : Word) (i : Instr), iFetch s s.ip = some w → decode s.config w = .ok i →
    step s = exec i { s with ip := s.ip + 1 }

/-- R100, the part before dispatch: `NoExec` past the end and `IllegalOp` on a tag of 26 or more, with no state change
in either. -/
def Obligations.FailedFetchChangesNothing : Prop :=
  ∀ s : State,
    (s.plen ≤ s.ip.toNat → step s = .fault (.noExec s)) ∧
    (∀ w, s.imem[s.ip.toNat]? = some w → 26 ≤ w.toNat / 2 ^ 64 → step s = .fault (.illegalOp s))

/-- No step and no instruction is refused: what stops a step is a result kind of the spec. That a wide shift and a deep `Len` go
on with a free value, where the spec's own treatment is to refuse, is the MODEL's choice (logs 5, 6). -/
def Obligations.NothingIsRefused : Prop :=
  (∀ (i : Instr) (s : State) (r : Refusal), exec i s ≠ .refused r) ∧ ∀ (s : State) (r : Refusal), step s ≠ .refused r

/-! ## Warmup -/

/-- R108: each of the 23 opcodes other than `Fun`, `Push` and `Exe` does nothing in Warmup and raises nothing. -/
def Obligations.OtherOpcodesIgnoredInWarmup : Prop :=
  ∀ (i : Instr) (s : State), s.phase = .warmup → i.opcode ≠ .fun_ → i.opcode ≠ .push → i.opcode ≠ .exe →
    exec i s = .next s

/-- R106: `Push` in Warmup skips `var` Words, reads none, pushes none and tests no bound; where the skip reaches the end of the
program, the next step is `NoExec`. -/
def Obligations.PushInWarmupSkipsItsLiterals : Prop :=
  ∀ (v : Imm) (s : State), s.phase = .warmup →
    exec (.push v) s = .next { s with ip := s.ip + BitVec.ofNat 128 v.toNat } ∧
    (s.plen ≤ (s.ip + BitVec.ofNat 128 v.toNat).toNat →
      step { s with ip := s.ip + BitVec.ofNat 128 v.toNat } =
        .fault (.noExec { s with ip := s.ip + BitVec.ofNat 128 v.toNat }))

/-- R105, as a step: `Fun` in Warmup pushes the offset of its own Word on `F`, or raises `StackOverflow` at capacity. -/
def Obligations.FunInWarmupRecordsItsOffset : Prop :=
  ∀ (s : State) (w : Word) (v : Imm), s.phase = .warmup → iFetch s s.ip = some w → decode s.config w = .ok (.fun_ v) →
    (hasRoom s.config.fstackCap s.fstack 1 = true → step s = .next { s with ip := s.ip + 1, fstack := s.ip :: s.fstack }) ∧
    (s.config.fstackCap = some s.fstack.length → step s = .fault (.stackOverflow { s with ip := s.ip + 1 }))

/-- `Fun` as exec sees it, after the advance: in Warmup it pushes `ip - 1` on `F`, which is the MODEL's way to name `a0` (log 11);
in Recital it does nothing (R160). -/
def Obligations.FunPushesOnlyInWarmup : Prop :=
  ∀ (v : Imm) (s : State),
    (s.phase = .warmup → hasRoom s.config.fstackCap s.fstack 1 = true →
      exec (.fun_ v) s = .next { s with fstack := (s.ip - 1) :: s.fstack }) ∧
    (s.phase = .recital → exec (.fun_ v) s = .next s)

/-- R107: `Exe` in Warmup enters Recital at the last recorded `Fun`, or raises `StackUnderflow` on an empty `F` with the
phase already written. -/
def Obligations.ExeInWarmupEntersRecital : Prop :=
  ∀ (v : Imm) (s : State), s.phase = .warmup →
    (∀ t F, s.fstack = t :: F → exec (.exe v) s = .next { s with phase := .recital, ip := t }) ∧
    (s.fstack = [] → exec (.exe v) s = .fault (.stackUnderflow { s with phase := .recital }))

/-- R104: a Warmup step that completes changes neither `P`, `C`, `Mem`, `ebp`, the program nor the parameters, and keeps every entry
of `F`; while it stays in Warmup it moves `ip` forward. -/
def Obligations.WarmupIsALinearScan : Prop :=
  ∀ s t : State, ProgramFits s → s.phase = .warmup → step s = .next t →
    t.pstack = s.pstack ∧ t.cstack = s.cstack ∧ t.mem = s.mem ∧ t.ebp = s.ebp ∧ t.imem = s.imem ∧
    t.config = s.config ∧ (t.phase = .warmup → s.ip.toNat < t.ip.toNat) ∧ s.fstack <:+ t.fstack

/-- R109 (an inference the spec marks): Warmup cannot run for ever; within `PLEN + 1` steps it has ended in a result that is
not `Ok`, or in Recital. -/
def Obligations.WarmupEnds : Prop :=
  ∀ s : State, ProgramFits s → s.phase = .warmup →
    ∃ n ≤ s.plen + 1, (∃ f, hostSteps n s = .fault f) ∨ ∃ t, hostSteps n s = .next t ∧ t.phase = .recital

/-- R110 (with R104 to R107): where the scan of the program, a function independent of the machine, ends at an `Exe` after
some `Fun`, the machine's Warmup ends in Recital at the last `Fun` before that `Exe`, with `F` holding the offsets of all
`Fun` words scanned and everything else as it was. -/
def Obligations.WarmupRefinesTheScan : Prop :=
  ∀ (s : State) (fuel last : Nat) (before : List Nat), ProgramFits s → s.phase = .warmup → s.config.fstackCap = none →
    s.fstack = [] → scan s.config s.imem fuel s.ip.toNat [] = some (.entered last before) →
    ∃ n ≤ fuel, hostSteps n s = .next
      { s with phase := .recital, ip := BitVec.ofNat 128 last, fstack := (last :: before).map (BitVec.ofNat 128) }

/-- R101: Recital is never left, and Warmup is left only by an `Exe`, for Recital at the last entry of `F`. -/
def Obligations.PhaseChangesOnceByExe : Prop :=
  ∀ s t : State, step s = .next t →
    (s.phase = .recital → t.phase = .recital) ∧
    (s.phase = .warmup → t.phase = .recital →
      ∃ w v F, iFetch s s.ip = some w ∧ decode s.config w = .ok (.exe v) ∧ s.fstack = t.ip :: F ∧ t.fstack = s.fstack)

/-! ## Stack instructions -/

/-- R120: `Push` in Recital pushes `var` literals whole, in text order; it raises `StackUnderflow` where the program ends
first and `StackOverflow` where `P` fills first, with the literals read so far pushed. -/
def Obligations.PushInRecitalPushesItsLiterals : Prop :=
  ∀ (v : Imm) (s : State), s.phase = .recital → ProgramFits s →
    (v = 0 → exec (.push v) s = .next s) ∧
    (s.ip.toNat + v.toNat ≤ s.plen → hasRoom s.config.pstackCap s.pstack v.toNat = true →
      exec (.push v) s = .next { s with
        pstack := ((s.imem.drop s.ip.toNat).take v.toNat).reverse ++ s.pstack
        ip := s.ip + BitVec.ofNat 128 v.toNat }) ∧
    (v ≠ 0 → s.plen < s.ip.toNat + v.toNat → hasRoom s.config.pstackCap s.pstack (s.plen - s.ip.toNat) = true →
      exec (.push v) s = .fault (.stackUnderflow { s with
        pstack := (s.imem.drop s.ip.toNat).reverse ++ s.pstack
        ip := BitVec.ofNat 128 (max s.ip.toNat s.plen) })) ∧
    (∀ m, s.config.pstackCap = some (s.pstack.length + m) → m < v.toNat → s.ip.toNat + m < s.plen →
      exec (.push v) s = .fault (.stackOverflow { s with
        pstack := ((s.imem.drop s.ip.toNat).take m).reverse ++ s.pstack
        ip := s.ip + BitVec.ofNat 128 m }))

/-- R121: `Pop` in Recital drops `var` Words, or empties `P` and raises `StackUnderflow`. -/
def Obligations.PopDropsVarWords : Prop :=
  ∀ (v : Imm) (s : State), s.phase = .recital →
    (v.toNat ≤ s.pstack.length → exec (.pop v) s = .next { s with pstack := s.pstack.drop v.toNat }) ∧
    (s.pstack.length < v.toNat → exec (.pop v) s = .fault (.stackUnderflow { s with pstack := [] }))

/-- R122: `Dup` in Recital pushes the top `var` times, or 0 on an empty `P`; it raises only `StackOverflow`, at capacity. -/
def Obligations.DupCopiesTheTop : Prop :=
  ∀ (v : Imm) (s : State), s.phase = .recital →
    (hasRoom s.config.pstackCap s.pstack v.toNat = true →
      exec (.dup v) s = .next { s with pstack := List.replicate v.toNat (s.pstack.headD 0) ++ s.pstack }) ∧
    (∀ m, s.config.pstackCap = some (s.pstack.length + m) → m < v.toNat →
      exec (.dup v) s = .fault (.stackOverflow
        { s with pstack := List.replicate m (s.pstack.headD 0) ++ s.pstack }))

/-! ## Arithmetic and logic -/

/-- R130: `Add` is `sat_add(a, b) = min(a + b, MAXW)`. -/
def Obligations.AddSaturates : Prop :=
  FoldsIntoTop .add fun a b => BitVec.ofNat 128 (min (a.toNat + b.toNat) (2 ^ 128 - 1))

/-- R131: `Dif` is the absolute difference. -/
def Obligations.DifIsAbsoluteDifference : Prop :=
  FoldsIntoTop .dif fun a b =>
    BitVec.ofNat 128 (if b.toNat ≤ a.toNat then a.toNat - b.toNat else b.toNat - a.toNat)

/-- R132: `Mul` is `sat_mul(a, b) = min(a * b, MAXW)`. -/
def Obligations.MulSaturates : Prop :=
  FoldsIntoTop .mul fun a b => BitVec.ofNat 128 (min (a.toNat * b.toNat) (2 ^ 128 - 1))

/-- R135, R136, R137: `And`, `Or`, `Xor` on all 128 bits. -/
def Obligations.AndOrXorAreBitwise : Prop :=
  FoldsIntoTop .and (fun a b => a &&& b) ∧ FoldsIntoTop .or (fun a b => a ||| b) ∧ FoldsIntoTop .xor (fun a b => a ^^^ b)

/-- R133: `Div` is the floor of the quotient, and `MAXW` by a zero divisor. -/
def Obligations.DivFloorsOrSaturates : Prop :=
  TakesOperandFromStackOrVar .div fun b a =>
    BitVec.ofNat 128 (if a.toNat = 0 then 2 ^ 128 - 1 else b.toNat / a.toNat)

/-- R134: `Rem` is `b - a * (b / a)`, and `MAXW` by a zero divisor. -/
def Obligations.RemIsOrdinaryRemainder : Prop :=
  TakesOperandFromStackOrVar .rem fun b a =>
    BitVec.ofNat 128 (if a.toNat = 0 then 2 ^ 128 - 1 else b.toNat - a.toNat * (b.toNat / a.toNat))

/-- R138 below an amount of 128; from 128 up the MODEL's choice is the free value `SHIFT_WIDE` (log 5), where the spec's own
treatment is to refuse. -/
def Obligations.ShlDropsHighBits : Prop :=
  TakesOperandFromStackOrVar .shl fun v n =>
    if n.toNat < 128 then BitVec.ofNat 128 (v.toNat * 2 ^ n.toNat) else Config.shiftWide .shl v n

/-- R139 below an amount of 128; from 128 up the MODEL's choice is the free value `SHIFT_WIDE` (log 5), where the spec's own
treatment is to refuse. -/
def Obligations.ShrFillsWithZeros : Prop :=
  TakesOperandFromStackOrVar .shr fun v n =>
    if n.toNat < 128 then BitVec.ofNat 128 (v.toNat / 2 ^ n.toNat) else Config.shiftWide .shr v n

/-! ## Compare and call -/

/-- R151: `Beq` calls when a Word beneath the top differs from it. -/
def Obligations.BeqCallsOnUnequalPair : Prop := CallsWhenAnyPair .beq fun a b => a ≠ b

/-- R152: `Bne` calls when a Word beneath the top equals it. -/
def Obligations.BneCallsOnEqualPair : Prop := CallsWhenAnyPair .bne fun a b => a = b

/-- R153, R154: `Bgt` and `Blt` both call when the top is at most a Word beneath it, unsigned. -/
def Obligations.BgtAndBltCallOnTopAtMost : Prop :=
  CallsWhenAnyPair .bgt (fun a b => a.toNat ≤ b.toNat) ∧ CallsWhenAnyPair .blt fun a b => a.toNat ≤ b.toNat

/-! ## Control -/

/-- R161, R162: `Call` in Recital is `do_call(var)`. -/
def Obligations.CallPushesReturnAndMarker : Prop :=
  ∀ (v : Imm) (s : State), s.phase = .recital → CallsFunction v s (exec (.call v) s)

/-- R163: `Ret` in Recital pops `ebp` and then `ip`; with one Word on `C`, `ebp` is written before the raise. -/
def Obligations.RetPopsMarkerThenTarget : Prop :=
  ∀ (v : Imm) (s : State), s.phase = .recital →
    (∀ m r C, s.cstack = m :: r :: C → exec (.ret v) s = .next { s with ebp := m, ip := r, cstack := C }) ∧
    (∀ m, s.cstack = [m] → exec (.ret v) s = .fault (.stackUnderflow { s with ebp := m, cstack := [] })) ∧
    (s.cstack = [] → exec (.ret v) s = .fault (.stackUnderflow s))

/-- R164: `Loop` in Recital pushes `ip` and then `var` on `C`. -/
def Obligations.LoopPushesAddressAndCounter : Prop :=
  ∀ (v : Imm) (s : State), s.phase = .recital →
    (hasRoom s.config.cstackCap s.cstack 2 = true →
      exec (.loop v) s = .next { s with cstack := BitVec.ofNat 128 v.toNat :: s.ip :: s.cstack }) ∧
    (s.config.cstackCap = some s.cstack.length → exec (.loop v) s = .fault (.stackOverflow s)) ∧
    (s.config.cstackCap = some (s.cstack.length + 1) →
      exec (.loop v) s = .fault (.stackOverflow { s with cstack := s.ip :: s.cstack }))

/-- R165: `Iter` in Recital counts down, keeps the pair while the decremented counter is not 0, and writes `ip` only with
`ITER_REDIRECT`; with fewer than two Words on `C` it empties it and raises `StackUnderflow`. -/
def Obligations.IterCountsDown : Prop :=
  ∀ (v : Imm) (s : State), s.phase = .recital → withinCap s.config.cstackCap s.cstack = true →
    (∀ c a C, s.cstack = c :: a :: C → 2 ≤ c.toNat →
      exec (.iter v) s = .next { s with
        cstack := BitVec.ofNat 128 (c.toNat - 1) :: a :: C
        ip := if s.config.iterRedirect = true then a else s.ip }) ∧
    (∀ c a C, s.cstack = c :: a :: C → c.toNat ≤ 1 → exec (.iter v) s = .next { s with cstack := C }) ∧
    (s.cstack.length < 2 → exec (.iter v) s = .fault (.stackUnderflow { s with cstack := [] }))

/-- R167: `Exe` in Recital always raises `EndReached` and changes nothing but the step's own advance of `ip`. -/
def Obligations.ExeInRecitalEndsTheRun : Prop :=
  (∀ (v : Imm) (s : State), s.phase = .recital → exec (.exe v) s = .fault (.endReached s)) ∧
  ∀ (s : State) (w : Word) (v : Imm), s.phase = .recital → iFetch s s.ip = some w → decode s.config w = .ok (.exe v) →
    step s = .fault (.endReached { s with ip := s.ip + 1 })

/-! ## Memory and depth -/

/-- R180, with R54: `Sto` in Recital pops first and tests the bound second; a completed store changes the Word at its
address to the popped Word and no other, and keeps the memory canonical. -/
def Obligations.StoWritesOneWord : Prop :=
  ∀ (v : Imm) (s : State), s.phase = .recital → MemoryCanonical s →
    (∀ x P, s.pstack = x :: P → (effectiveAddress v).toNat < 1024 →
      ∃ m, exec (.sto v) s = .next { s with pstack := P, mem := m } ∧ m.wf = true ∧
        m.read (effectiveAddress v).toNat = x ∧
        ∀ a, a ≠ (effectiveAddress v).toNat → m.read a = s.mem.read a) ∧
    (∀ x P, s.pstack = x :: P → 1024 ≤ (effectiveAddress v).toNat →
      exec (.sto v) s = .fault (.writeOob { s with pstack := P })) ∧
    (s.pstack = [] → exec (.sto v) s = .fault (.stackUnderflow s)) ∧
    (effectiveAddress v).toNat = v.toNat

/-- R181: `Lod` in Recital tests the bound first and then pushes the Word at its address. -/
def Obligations.LodPushesOneWord : Prop :=
  ∀ (v : Imm) (s : State), s.phase = .recital →
    (v.toNat < 1024 → hasRoom s.config.pstackCap s.pstack 1 = true →
      exec (.lod v) s = .next { s with pstack := s.mem.read v.toNat :: s.pstack }) ∧
    (v.toNat < 1024 → s.config.pstackCap = some s.pstack.length → exec (.lod v) s = .fault (.stackOverflow s)) ∧
    (1024 ≤ v.toNat → exec (.lod v) s = .fault (.writeOob s))

/-- R61 (2), over steps of the machine: after a `Sto` and any number of steps of which none is a `Sto` to the same address, a
`Lod` of that address pushes the Word stored; and after a launch and any number of steps of which none is a `Sto` to that
address in Recital, a `Lod` of an address of the data memory pushes 0. -/
def Obligations.LoadReadsTheLatestStore : Prop :=
  (∀ (v : Imm) (x : Word) (P : Stack) (n : Nat) (s t u : State), s.phase = .recital → MemoryCanonical s →
    s.pstack = x :: P → NextIs s (.sto v) → step s = .next t → stepsWithout (.sto v) n t u → NextIs u (.lod v) →
    hasRoom u.config.pstackCap u.pstack 1 = true →
    step u = .next { u with ip := u.ip + 1, pstack := x :: u.pstack }) ∧
  ∀ (v : Imm) (program : List Word) (n : Nat) (r s u : State), v.toNat < 1024 → launch program r = .next s →
    stepsWithout (.sto v) n s u → u.phase = .recital → NextIs u (.lod v) →
    hasRoom u.config.pstackCap u.pstack 1 = true →
    step u = .next { u with ip := u.ip + 1, pstack := 0 :: u.pstack }

/-- R182 where `ebp` is at most the length; where it is larger the MODEL's choice is the free value `LEN_UNDERFLOW` (log 6),
where the spec's own treatment is to refuse. -/
def Obligations.LenPushesDepthLessEbp : Prop :=
  ∀ (v : Imm) (s : State), s.phase = .recital →
    (hasRoom s.config.pstackCap s.pstack 1 = true → s.ebp.toNat ≤ s.pstack.length →
      exec (.len v) s = .next { s with pstack := BitVec.ofNat 128 (s.pstack.length - s.ebp.toNat) :: s.pstack }) ∧
    (hasRoom s.config.pstackCap s.pstack 1 = true → s.pstack.length < s.ebp.toNat →
      exec (.len v) s = .next { s with pstack := Config.lenUnderflow s.pstack.length s.ebp :: s.pstack }) ∧
    (s.config.pstackCap = some s.pstack.length → exec (.len v) s = .fault (.stackOverflow s))

/-! ## The whole machine -/

/-- What each instruction leaves unchanged when it completes: the program store and the parameters always; `ebp`, the phase,
the stacks, `ip` and each Word of memory but where the rules say an instruction writes them. -/
def Obligations.CompletedInstructionFrame : Prop :=
  ∀ (i : Instr) (s t : State), MemoryCanonical s → exec i s = .next t → ChangesOnlyWhatItsRuleWrites i s t

/-- What a raise leaves unchanged: the program store, the parameters, the function table and the whole data memory; and
unless the instruction is an `Exe`, the phase; unless it is a `Ret`, `ebp`. -/
def Obligations.RaisedInstructionFrame : Prop :=
  ∀ (i : Instr) (s : State) (f : Fault), exec i s = .fault f →
    f.left.imem = s.imem ∧ f.left.config = s.config ∧ f.left.fstack = s.fstack ∧ f.left.mem = s.mem ∧
    (i.opcode ≠ .exe → f.left.phase = s.phase) ∧ (i.opcode ≠ .ret → f.left.ebp = s.ebp)

/-- R201: every cause of `StackUnderflow`, by instruction and by the stack that was found empty. -/
def Obligations.CausesOfStackUnderflow : Prop :=
  ∀ (i : Instr) (s t : State), exec i s = .fault (.stackUnderflow t) →
    (s.phase = .recital ∧ t.pstack = [] ∧
      i.opcode ∈ [Opcode.pop, .add, .dif, .mul, .div, .rem, .and, .or, .xor, .shl, .shr, .beq, .bne, .bgt, .blt, .sto]) ∨
    (s.phase = .recital ∧ t.cstack = [] ∧ i.opcode ∈ [Opcode.ret, .iter]) ∨
    (s.phase = .warmup ∧ t.fstack = [] ∧ i.opcode = .exe) ∨
    (s.phase = .recital ∧ t.plen ≤ t.ip.toNat ∧ i.opcode = .push)

/-- R200, R202, R31: which instruction and phase each of the other kinds can come from; `StackOverflow`, from a state whose stacks
fit, only with the stack the instruction pushes on at its capacity. -/
def Obligations.CausesOfOtherResultKinds : Prop :=
  ∀ (i : Instr) (s : State) (f : Fault), exec i s = .fault f →
    (f.kind = .endReached → s.phase = .recital ∧ i.opcode = .exe) ∧
    (f.kind = .writeOob → s.phase = .recital ∧ i.opcode ∈ [Opcode.sto, .lod] ∧ 1024 ≤ i.var.toNat) ∧
    (f.kind = .badCall → s.phase = .recital ∧ i.opcode ∈ [Opcode.beq, .bne, .bgt, .blt, .call] ∧
      ∀ t, s.fstack.reverse[i.var.toNat]? = some t → s.plen ≤ t.toNat) ∧
    (f.kind = .stackOverflow → StacksFit s →
      (s.phase = .recital ∧ i.opcode ∈ [Opcode.push, .dup, .lod, .len] ∧
        s.config.pstackCap = some f.left.pstack.length) ∨
      (s.phase = .recital ∧ i.opcode ∈ [Opcode.beq, .bne, .bgt, .blt, .call, .loop] ∧
        s.config.cstackCap = some f.left.cstack.length) ∨
      (s.phase = .warmup ∧ i.opcode = .fun_ ∧ s.config.fstackCap = some f.left.fstack.length)) ∧
    f.kind ≠ .noExec ∧ f.kind ≠ .illegalOp ∧ f.kind ≠ .ok

/-- A step keeps the invariant of the machine: stacks within capacity, a program that fits, a canonical data memory, and a
function table whose every entry is the offset of a `Fun` word (R161). -/
def Obligations.StepKeepsMachineInvariant : Prop :=
  ∀ s t : State, MachineInv s → step s = .next t → MachineInv t

/-- The state a raise leaves keeps the same invariant, so a step after the end of a run (R208) starts inside it. -/
def Obligations.RaiseKeepsMachineInvariant : Prop :=
  ∀ (s : State) (f : Fault), MachineInv s → step s = .fault f → MachineInv f.left

/-- A launch, reset and then `read`, meets the invariant under every configuration the spec admits. -/
def Obligations.LaunchMeetsMachineInvariant : Prop :=
  ∀ (s t : State) (program : List Word), s.config.wf = true → launch program s = .next t →
    MachineInv t ∧ EntriesInTextOrder t ∧ PointersBelowWrap t

/-- R27: the function table stays in text order, and in Warmup ahead of none of its entries. -/
def Obligations.StepKeepsFunctionTableInTextOrder : Prop :=
  ∀ s t : State, ProgramFits s → EntriesInTextOrder s → step s = .next t → EntriesInTextOrder t

/-- R22 (an inference the spec marks): while the call stack holds at most 2^64 Words, which every call stack of a capacity up to
2^64 does, `ip` and every Word that can be loaded into it stay below `PLEN + 2^64 + 2`, so no `ip` arithmetic wraps (the premise on
the call stack is the MODEL's, log 13). -/
def Obligations.StepKeepsPointersBelowWrap : Prop :=
  ∀ s t : State, ProgramFits s → s.cstack.length ≤ 2 ^ 64 → PointersBelowWrap s → step s = .next t →
    PointersBelowWrap t

/-! ## Reset and the host -/

/-- R39: every piece of state after reset. -/
def Obligations.ResetValues : Prop :=
  State.reset.ip = 0 ∧ State.reset.ebp = 0 ∧ State.reset.phase = .warmup ∧ State.reset.pstack = [] ∧
  State.reset.cstack = [] ∧ State.reset.fstack = [] ∧ (∀ a < 1024, State.reset.mem.read a = 0) ∧
  State.reset.imem = [] ∧ State.reset.plen = 0

/-- The reset state meets the invariants of the machine, under the default configuration (its open rows are the MODEL's
choice, log 2). -/
def Obligations.ResetMeetsMachineInvariant : Prop :=
  MachineInv State.reset ∧ EntriesInTextOrder State.reset ∧ PointersBelowWrap State.reset ∧
    State.reset.config.wf = true

/-- R241: `read` sets the program and changes nothing else; a program longer than `IMEM_CAP` is not installed, and that the host
operation is then refused is the MODEL's choice (log 15). -/
def Obligations.ReadInstallsTheProgramOnly : Prop :=
  ∀ (program : List Word) (s : State),
    (program.length ≤ s.config.imemCap →
      hostRead program s = .next { s with imem := program } ∧ State.plen { s with imem := program } = program.length) ∧
    (s.config.imemCap < program.length → hostRead program s = .refused .programTooLong)

/-- R243: `steps(m + n)` is `steps(m)` and, if that did not stop, `steps(n)`. -/
def Obligations.StepsCompose : Prop :=
  ∀ (m n : Nat) (s : State),
    (∀ t, hostSteps m s = .next t → hostSteps (m + n) s = hostSteps n t) ∧
    (∀ f, hostSteps m s = .fault f → hostSteps (m + n) s = .fault f)

/-- R244, R207: `run` under fuel answers the first result that is not `Ok`, and only that. -/
def Obligations.RunAnswersTheFirstFailure : Prop :=
  ∀ (n : Nat) (s : State) (f : Fault),
    hostRun n s = some f ↔ ∃ k < n, ∃ t, hostSteps k s = .next t ∧ step t = .fault f

/-- R208: after `NoExec` or `IllegalOp` a further step returns the same result again. -/
def Obligations.FailedFetchRepeats : Prop :=
  ∀ (s t : State), (hostStep s = some (.noExec, t) ∨ hostStep s = some (.illegalOp, t)) →
    t = s ∧ hostStep t = hostStep s

/-! ## The assembler's contract -/

/-- R91, R92, R93: a mnemonic and a number below 2^64 make the Word that encode gives, a number alone makes a literal Word, and
the three cases of a format error: a trailing mnemonic, a token that is neither with no mnemonic pending, and a mnemonic
followed by a token that is no number, another mnemonic among them.
Which characters are white space and which tokens the spec leaves open are the MODEL's choice (log 19). -/
def Obligations.AssemblerEmitsEncodedWords : Prop :=
  (∀ op : Opcode, ∃ t ∈ spellings.map Prod.fst, classify t = .mnemonic op) ∧
  ∀ (c : Config) (m t : List Char) (op : Opcode) (n : Nat) (rest : List (List Char)), classify m = .mnemonic op →
    assembleTokens c none [m] = .formatError .number none ∧
    (∀ op2, classify t = .mnemonic op2 → assembleTokens c none (m :: t :: rest) = .formatError .number (some t)) ∧
    (classify t = .number n → n < 2 ^ 64 →
      assembleTokens c none (m :: t :: rest) =
        (assembleTokens c none rest).prepend (encode c (op.instr (BitVec.ofNat 64 n)))) ∧
    (classify t = .number n → n < 2 ^ 128 →
      assembleTokens c none (t :: rest) = (assembleTokens c none rest).prepend (BitVec.ofNat 128 n)) ∧
    (classify t = .other → assembleTokens c none (t :: rest) = .formatError .opcode (some t) ∧
      assembleTokens c none (m :: t :: rest) = .formatError .number (some t))

/-! ## Reset from any state, and the status port -/

/-- R240, R39: reset from any state gives every piece of state its reset value; that it keeps the parameters is the MODEL's
reading of a new machine of the same build (log 16). -/
def Obligations.HostResetGivesEveryPieceItsResetValue : Prop :=
  ∀ s : State,
    (hostReset s).ip = 0 ∧ (hostReset s).ebp = 0 ∧ (hostReset s).phase = .warmup ∧ (hostReset s).pstack = [] ∧
    (hostReset s).cstack = [] ∧ (hostReset s).fstack = [] ∧ (∀ a < 1024, (hostReset s).mem.read a = 0) ∧
    (hostReset s).imem = [] ∧ (hostReset s).plen = 0 ∧ (hostReset s).config = s.config

/-- R200 with D18: `RESULT_CODE` is injective, so the number on the status port tells the result kinds apart: every step gives
one, and two steps give the same one exactly when they return the same kind. -/
def Obligations.StatusTellsTheResultKind : Prop :=
  ∀ s t : State, (∃ k u, hostStep s = some (k, u) ∧ hostStatus s = some (resultCode k)) ∧
    (hostStatus s = hostStatus t ↔ (hostStep s).map Prod.fst = (hostStep t).map Prod.fst)
end

