-- ==== Sys2Proof/Laws/Encoding.lean ====
section
/-! SUPPORT. Lemmas about the fields of a Word, the opcode of an instruction, and the tag table. -/

namespace Sys2Proof

theorem tagField_append (t v : BitVec 64) : tagField (t ++ v) = t := by
  exact BitVec.extractLsb'_append_eq_left (w := 64) (w' := 64)

theorem immField_append (t v : BitVec 64) : immField (t ++ v) = v := by
  exact BitVec.extractLsb'_append_eq_right (w := 64) (w' := 64)

@[simp] theorem Opcode.opcode_instr (op : Opcode) (v : Imm) : (op.instr v).opcode = op := by
  cases op <;> rfl

@[simp] theorem Opcode.var_instr (op : Opcode) (v : Imm) : (op.instr v).var = v := by
  cases op <;> rfl

@[simp] theorem Instr.instr_opcode_var (i : Instr) : i.opcode.instr i.var = i := by
  cases i <;> rfl

/-- The decoder keeps the immediate modulo `2^IMM_BITS`. -/
theorem keepImm_toNat (c : Config) (v : BitVec 64) : (keepImm c v).toNat = v.toNat % 2 ^ c.immBits.width := by
  unfold keepImm ImmBits.width
  cases c.immBits
  · simp only [BitVec.toNat_setWidth]; omega
  · exact (Nat.mod_eq_of_lt v.isLt).symm

/-- A duplicate-free table of all 26 opcodes answers the opcode that `tagOf` numbers. -/
theorem getElem?_tagOf (c : Config) (op : Opcode) (h : op ∈ c.tag) : c.tag[tagOf c op]? = some op := by
  have hlt : c.tag.idxOf op < c.tag.length := List.idxOf_lt_length_of_mem h
  rw [tagOf, List.getElem?_eq_getElem hlt, List.getElem_idxOf]

/-- What the decoder answers, once: an opcode of the table under a tag below 26, with the kept immediate. -/
theorem decode_eq_ok_iff (c : Config) (w : Word) (i : Instr) :
    decode c w = .ok i ↔
      (tagField w).toNat < 26 ∧ c.tag[(tagField w).toNat]? = some i.opcode ∧ i.var = keepImm c (immField w) := by
  unfold decode
  split
  · simp; omega
  · rename_i hlt
    split
    · rename_i op hop
      constructor
      · intro h; cases h; simp [hop]; omega
      · rintro ⟨-, h, hv⟩
        rw [hop] at h
        cases h
        rw [← hv, Instr.instr_opcode_var]
    · rename_i hnone; simp [hnone]

end Sys2Proof
end

