-- ==== Sys2Proof/Laws/Memory.lean ====
section
/-! SUPPORT. The data memory: a read after a write, and the canonical form. -/

namespace Sys2Proof.Machine

theorem Memory.wfFrom_mono {m : Memory} {lo lo' : Nat} (hle : lo' ≤ lo) (h : Memory.wfFrom lo m = true) :
    Memory.wfFrom lo' m = true := by
  cases m with
  | nil => rfl
  | cons c m =>
    simp only [Memory.wfFrom, Bool.and_eq_true, decide_eq_true_eq] at h ⊢
    exact ⟨⟨⟨hle.trans h.1.1.1, h.1.1.2⟩, h.1.2⟩, h.2⟩

/-- A canonical memory reads the reset value below its first address. -/
theorem Memory.read_below {m : Memory} {lo a : Nat} (h : Memory.wfFrom lo m = true) (ha : a < lo) :
    m.read a = unlistedWord := by
  induction m generalizing lo with
  | nil => rfl
  | cons c m ih =>
    simp only [Memory.wfFrom, Bool.and_eq_true, decide_eq_true_eq] at h
    have hne : c.1 ≠ a := by omega
    simp only [Memory.read, if_neg hne]
    exact ih h.2 (by omega)

theorem Memory.read_cons_cell {m : Memory} {a : Nat} {v : Word} (h : Memory.wfFrom (a + 1) m = true) (b : Nat) :
    (Memory.cons a v m).read b = if b = a then v else m.read b := by
  unfold Memory.cons
  split
  · split
    · next hv hb => rw [hb, hv, Memory.read_below h (Nat.lt_succ_self a)]
    · rfl
  · simp only [Memory.read, eq_comm]

/-- `MemWrite(a, 1, v)` "sets `Mem[a] <- v` and changes no other location" (`20_memory.md` R54). -/
theorem Memory.read_write {m : Memory} {lo : Nat} (h : Memory.wfFrom lo m = true) (a b : Nat) (v : Word) :
    (m.write a v).read b = if b = a then v else m.read b := by
  induction m generalizing lo with
  | nil => exact Memory.read_cons_cell (m := []) rfl b
  | cons c m ih =>
    obtain ⟨k, w⟩ := c
    have hwf := h
    simp only [Memory.wfFrom, Bool.and_eq_true, decide_eq_true_eq] at h
    unfold Memory.write
    split
    · next hlt =>
      refine Memory.read_cons_cell ?_ b
      simp only [Memory.wfFrom, Bool.and_eq_true, decide_eq_true_eq]
      exact ⟨⟨⟨hlt, h.1.1.2⟩, h.1.2⟩, h.2⟩
    · split
      · next heq =>
        rw [Memory.read_cons_cell (by rw [heq]; exact h.2) b]
        by_cases hb : b = a
        · simp [hb]
        · have hk : k ≠ b := by omega
          simp [Memory.read, hb, hk]
      · next hne =>
        simp only [Memory.read, ih h.2]
        by_cases hk : k = b
        · have hb : b ≠ a := by omega
          simp [hk, hb]
        · simp [hk]

theorem Memory.wfFrom_cons_cell {m : Memory} {lo a : Nat} {v : Word} (hlo : lo ≤ a) (ha : a < memWords)
    (h : Memory.wfFrom (a + 1) m = true) : Memory.wfFrom lo (Memory.cons a v m) = true := by
  unfold Memory.cons
  split
  · exact Memory.wfFrom_mono (by omega) h
  · next hv => simp [Memory.wfFrom, hlo, ha, hv, h]

theorem Memory.wfFrom_write {m : Memory} {lo : Nat} (h : Memory.wfFrom lo m = true) {a : Nat} (hlo : lo ≤ a)
    (ha : a < memWords) (v : Word) : Memory.wfFrom lo (m.write a v) = true := by
  induction m generalizing lo with
  | nil => exact Memory.wfFrom_cons_cell hlo ha rfl
  | cons c m ih =>
    obtain ⟨k, w⟩ := c
    simp only [Memory.wfFrom, Bool.and_eq_true, decide_eq_true_eq] at h
    unfold Memory.write
    split
    · next hlt =>
      refine Memory.wfFrom_cons_cell hlo ha ?_
      simp only [Memory.wfFrom, Bool.and_eq_true, decide_eq_true_eq]
      exact ⟨⟨⟨hlt, h.1.1.2⟩, h.1.2⟩, h.2⟩
    · split
      · next heq => exact Memory.wfFrom_cons_cell hlo ha (by rw [heq]; exact h.2)
      · next hlt hne =>
        have := ih h.2 (show k + 1 ≤ a by omega)
        simp only [Memory.wfFrom, Bool.and_eq_true, decide_eq_true_eq]
        exact ⟨h.1, this⟩

/-- A write inside the data memory keeps the canonical form. -/
theorem Memory.wf_write {m : Memory} (h : m.wf = true) {a : Nat} (ha : a < memWords) (v : Word) :
    (m.write a v).wf = true := Memory.wfFrom_write h (Nat.zero_le a) ha v

/-- The memory operation a step uses keeps the canonical form. -/
theorem memWrite_wf {s t : State} {a v : Word} (h : s.mem.wf = true) (hw : memWrite s a v = .ok t) : t.mem.wf = true := by
  unfold memWrite at hw
  split at hw
  · cases hw
  · cases hw; exact Memory.wf_write h (by omega) v

theorem reset_mem_wf : State.reset.mem.wf = true := rfl

/-- Canonical memories that read the same at every address are the same data. -/
theorem Memory.ext_of_read {m m' : Memory} {lo : Nat} (h : Memory.wfFrom lo m = true) (h' : Memory.wfFrom lo m' = true)
    (hr : ∀ a, m.read a = m'.read a) : m = m' := by
  induction m generalizing m' lo with
  | nil =>
    cases m' with
    | nil => rfl
    | cons c m' =>
      have := hr c.1
      simp [Memory.wfFrom] at h'
      simp [Memory.read] at this
      exact absurd this.symm (by simpa using h'.1.2)
  | cons c m ih =>
    cases m' with
    | nil =>
      have := hr c.1
      simp [Memory.wfFrom] at h
      simp [Memory.read] at this
      exact absurd this (by simpa using h.1.2)
    | cons d m' =>
      obtain ⟨k, w⟩ := c
      obtain ⟨k', w'⟩ := d
      simp only [Memory.wfFrom, Bool.and_eq_true, decide_eq_true_eq] at h h'
      have hk : k = k' := by
        rcases Nat.lt_trichotomy k k' with hlt | heq | hgt
        · have := hr k
          have hne : k' ≠ k := by omega
          simp only [Memory.read, if_true, if_neg hne, Memory.read_below h'.2 (show k < k' + 1 by omega)] at this
          exact absurd this h.1.2
        · exact heq
        · have := hr k'
          have hne : k ≠ k' := by omega
          simp only [Memory.read, if_true, if_neg hne, Memory.read_below h.2 (show k' < k + 1 by omega)] at this
          exact absurd this.symm h'.1.2
      subst hk
      have hw : w = w' := by simpa [Memory.read] using hr k
      subst hw
      congr 1
      refine ih h.2 h'.2 fun a => ?_
      have := hr a
      by_cases ha : k = a
      · rw [Memory.read_below h.2 (by omega), Memory.read_below h'.2 (by omega)]
      · simpa [Memory.read, ha] using this

end Sys2Proof.Machine
end

