-- ==== Sys2Proof/Laws/State.lean ====
section
/-! SUPPORT. One lemma per field per update of State, so that no proof unfolds a record update. -/

namespace Sys2Proof.Machine

@[simp] theorem State.setIp_ip (s : State) (v : Word) : (s.setIp v).ip = v := rfl
@[simp] theorem State.setIp_ebp (s : State) (v : Word) : (s.setIp v).ebp = s.ebp := rfl
@[simp] theorem State.setIp_phase (s : State) (v : Word) : (s.setIp v).phase = s.phase := rfl
@[simp] theorem State.setIp_pstack (s : State) (v : Word) : (s.setIp v).pstack = s.pstack := rfl
@[simp] theorem State.setIp_cstack (s : State) (v : Word) : (s.setIp v).cstack = s.cstack := rfl
@[simp] theorem State.setIp_fstack (s : State) (v : Word) : (s.setIp v).fstack = s.fstack := rfl
@[simp] theorem State.setIp_imem (s : State) (v : Word) : (s.setIp v).imem = s.imem := rfl
@[simp] theorem State.setIp_mem (s : State) (v : Word) : (s.setIp v).mem = s.mem := rfl
@[simp] theorem State.setIp_config (s : State) (v : Word) : (s.setIp v).config = s.config := rfl

@[simp] theorem State.setEbp_ip (s : State) (v : Word) : (s.setEbp v).ip = s.ip := rfl
@[simp] theorem State.setEbp_ebp (s : State) (v : Word) : (s.setEbp v).ebp = v := rfl
@[simp] theorem State.setEbp_phase (s : State) (v : Word) : (s.setEbp v).phase = s.phase := rfl
@[simp] theorem State.setEbp_pstack (s : State) (v : Word) : (s.setEbp v).pstack = s.pstack := rfl
@[simp] theorem State.setEbp_cstack (s : State) (v : Word) : (s.setEbp v).cstack = s.cstack := rfl
@[simp] theorem State.setEbp_fstack (s : State) (v : Word) : (s.setEbp v).fstack = s.fstack := rfl
@[simp] theorem State.setEbp_imem (s : State) (v : Word) : (s.setEbp v).imem = s.imem := rfl
@[simp] theorem State.setEbp_mem (s : State) (v : Word) : (s.setEbp v).mem = s.mem := rfl
@[simp] theorem State.setEbp_config (s : State) (v : Word) : (s.setEbp v).config = s.config := rfl

@[simp] theorem State.setPhase_ip (s : State) (v : Phase) : (s.setPhase v).ip = s.ip := rfl
@[simp] theorem State.setPhase_ebp (s : State) (v : Phase) : (s.setPhase v).ebp = s.ebp := rfl
@[simp] theorem State.setPhase_phase (s : State) (v : Phase) : (s.setPhase v).phase = v := rfl
@[simp] theorem State.setPhase_pstack (s : State) (v : Phase) : (s.setPhase v).pstack = s.pstack := rfl
@[simp] theorem State.setPhase_cstack (s : State) (v : Phase) : (s.setPhase v).cstack = s.cstack := rfl
@[simp] theorem State.setPhase_fstack (s : State) (v : Phase) : (s.setPhase v).fstack = s.fstack := rfl
@[simp] theorem State.setPhase_imem (s : State) (v : Phase) : (s.setPhase v).imem = s.imem := rfl
@[simp] theorem State.setPhase_mem (s : State) (v : Phase) : (s.setPhase v).mem = s.mem := rfl
@[simp] theorem State.setPhase_config (s : State) (v : Phase) : (s.setPhase v).config = s.config := rfl

@[simp] theorem State.setPstack_ip (s : State) (v : Stack) : (s.setPstack v).ip = s.ip := rfl
@[simp] theorem State.setPstack_ebp (s : State) (v : Stack) : (s.setPstack v).ebp = s.ebp := rfl
@[simp] theorem State.setPstack_phase (s : State) (v : Stack) : (s.setPstack v).phase = s.phase := rfl
@[simp] theorem State.setPstack_pstack (s : State) (v : Stack) : (s.setPstack v).pstack = v := rfl
@[simp] theorem State.setPstack_cstack (s : State) (v : Stack) : (s.setPstack v).cstack = s.cstack := rfl
@[simp] theorem State.setPstack_fstack (s : State) (v : Stack) : (s.setPstack v).fstack = s.fstack := rfl
@[simp] theorem State.setPstack_imem (s : State) (v : Stack) : (s.setPstack v).imem = s.imem := rfl
@[simp] theorem State.setPstack_mem (s : State) (v : Stack) : (s.setPstack v).mem = s.mem := rfl
@[simp] theorem State.setPstack_config (s : State) (v : Stack) : (s.setPstack v).config = s.config := rfl

@[simp] theorem State.setCstack_ip (s : State) (v : Stack) : (s.setCstack v).ip = s.ip := rfl
@[simp] theorem State.setCstack_ebp (s : State) (v : Stack) : (s.setCstack v).ebp = s.ebp := rfl
@[simp] theorem State.setCstack_phase (s : State) (v : Stack) : (s.setCstack v).phase = s.phase := rfl
@[simp] theorem State.setCstack_pstack (s : State) (v : Stack) : (s.setCstack v).pstack = s.pstack := rfl
@[simp] theorem State.setCstack_cstack (s : State) (v : Stack) : (s.setCstack v).cstack = v := rfl
@[simp] theorem State.setCstack_fstack (s : State) (v : Stack) : (s.setCstack v).fstack = s.fstack := rfl
@[simp] theorem State.setCstack_imem (s : State) (v : Stack) : (s.setCstack v).imem = s.imem := rfl
@[simp] theorem State.setCstack_mem (s : State) (v : Stack) : (s.setCstack v).mem = s.mem := rfl
@[simp] theorem State.setCstack_config (s : State) (v : Stack) : (s.setCstack v).config = s.config := rfl

@[simp] theorem State.setFstack_ip (s : State) (v : Stack) : (s.setFstack v).ip = s.ip := rfl
@[simp] theorem State.setFstack_ebp (s : State) (v : Stack) : (s.setFstack v).ebp = s.ebp := rfl
@[simp] theorem State.setFstack_phase (s : State) (v : Stack) : (s.setFstack v).phase = s.phase := rfl
@[simp] theorem State.setFstack_pstack (s : State) (v : Stack) : (s.setFstack v).pstack = s.pstack := rfl
@[simp] theorem State.setFstack_cstack (s : State) (v : Stack) : (s.setFstack v).cstack = s.cstack := rfl
@[simp] theorem State.setFstack_fstack (s : State) (v : Stack) : (s.setFstack v).fstack = v := rfl
@[simp] theorem State.setFstack_imem (s : State) (v : Stack) : (s.setFstack v).imem = s.imem := rfl
@[simp] theorem State.setFstack_mem (s : State) (v : Stack) : (s.setFstack v).mem = s.mem := rfl
@[simp] theorem State.setFstack_config (s : State) (v : Stack) : (s.setFstack v).config = s.config := rfl

@[simp] theorem State.setImem_ip (s : State) (v : List Word) : (s.setImem v).ip = s.ip := rfl
@[simp] theorem State.setImem_ebp (s : State) (v : List Word) : (s.setImem v).ebp = s.ebp := rfl
@[simp] theorem State.setImem_phase (s : State) (v : List Word) : (s.setImem v).phase = s.phase := rfl
@[simp] theorem State.setImem_pstack (s : State) (v : List Word) : (s.setImem v).pstack = s.pstack := rfl
@[simp] theorem State.setImem_cstack (s : State) (v : List Word) : (s.setImem v).cstack = s.cstack := rfl
@[simp] theorem State.setImem_fstack (s : State) (v : List Word) : (s.setImem v).fstack = s.fstack := rfl
@[simp] theorem State.setImem_imem (s : State) (v : List Word) : (s.setImem v).imem = v := rfl
@[simp] theorem State.setImem_mem (s : State) (v : List Word) : (s.setImem v).mem = s.mem := rfl
@[simp] theorem State.setImem_config (s : State) (v : List Word) : (s.setImem v).config = s.config := rfl

@[simp] theorem State.setMem_ip (s : State) (v : Memory) : (s.setMem v).ip = s.ip := rfl
@[simp] theorem State.setMem_ebp (s : State) (v : Memory) : (s.setMem v).ebp = s.ebp := rfl
@[simp] theorem State.setMem_phase (s : State) (v : Memory) : (s.setMem v).phase = s.phase := rfl
@[simp] theorem State.setMem_pstack (s : State) (v : Memory) : (s.setMem v).pstack = s.pstack := rfl
@[simp] theorem State.setMem_cstack (s : State) (v : Memory) : (s.setMem v).cstack = s.cstack := rfl
@[simp] theorem State.setMem_fstack (s : State) (v : Memory) : (s.setMem v).fstack = s.fstack := rfl
@[simp] theorem State.setMem_imem (s : State) (v : Memory) : (s.setMem v).imem = s.imem := rfl
@[simp] theorem State.setMem_mem (s : State) (v : Memory) : (s.setMem v).mem = v := rfl
@[simp] theorem State.setMem_config (s : State) (v : Memory) : (s.setMem v).config = s.config := rfl

end Sys2Proof.Machine
end

