-- ==== Sys2Proof/Laws/Ops.lean ====
section
/-! SUPPORT. For each shared operation, once, everything it can do: the answer when it completes and the fault when it
raises. Provers cite these and do not unfold the operations. -/

namespace Sys2Proof.Machine

/-! ## Raising and finishing -/

@[simp] theorem raise_eq {α : Type} (k : State → Fault) (s : State) : (raise k s : Res α) = .error (k s) := rfl

@[simp] theorem finish_ok (s : State) : finish (.ok s) = .next s := rfl

@[simp] theorem finish_error (f : Fault) : finish (.error f) = .fault f := rfl

theorem finish_eq_next {r : Res State} {t : State} : finish r = .next t ↔ r = .ok t := by
  cases r <;> simp [finish]

theorem finish_eq_fault {r : Res State} {f : Fault} : finish r = .fault f ↔ r = .error f := by
  cases r <;> simp [finish]

theorem finish_ne_refused (r : Res State) (q : Refusal) : finish r ≠ .refused q := by
  cases r <;> simp [finish]

theorem byPhase_warmup {s : State} (h : s.phase = .warmup) (w r : State → Res State) :
    byPhase s w r = finish (w s) := by
  simp [byPhase, h]

theorem byPhase_recital {s : State} (h : s.phase = .recital) (w r : State → Res State) :
    byPhase s w r = finish (r s) := by
  simp [byPhase, h]

/-- A bind completes exactly when both parts do. -/
theorem bind_eq_ok {α β : Type} {x : Res α} {f : α → Res β} {b : β} :
    (x >>= f) = .ok b ↔ ∃ a, x = .ok a ∧ f a = .ok b := by
  cases x <;> simp [bind, Except.bind]

/-- A bind raises exactly when its first part does, or its second part after the first. -/
theorem bind_eq_error {α β : Type} {x : Res α} {f : α → Res β} {e : Fault} :
    (x >>= f) = .error e ↔ x = .error e ∨ ∃ a, x = .ok a ∧ f a = .error e := by
  cases x <;> simp [bind, Except.bind]

/-! ## The stack engine -/

theorem pushP_eq_ok {s t : State} {v : Word} :
    pushP s v = .ok t ↔ s.config.pstackCap ≠ some s.pstack.length ∧ t = s.setPstack (v :: s.pstack) := by
  unfold pushP stackPush
  by_cases h : s.config.pstackCap = some s.pstack.length <;> simp [h, eq_comm]

theorem pushP_eq_error {s : State} {v : Word} {f : Fault} :
    pushP s v = .error f ↔ s.config.pstackCap = some s.pstack.length ∧ f = .stackOverflow s := by
  unfold pushP stackPush
  by_cases h : s.config.pstackCap = some s.pstack.length <;> simp [h, eq_comm]

theorem pushC_eq_ok {s t : State} {v : Word} :
    pushC s v = .ok t ↔ s.config.cstackCap ≠ some s.cstack.length ∧ t = s.setCstack (v :: s.cstack) := by
  unfold pushC stackPush
  by_cases h : s.config.cstackCap = some s.cstack.length <;> simp [h, eq_comm]

theorem pushC_eq_error {s : State} {v : Word} {f : Fault} :
    pushC s v = .error f ↔ s.config.cstackCap = some s.cstack.length ∧ f = .stackOverflow s := by
  unfold pushC stackPush
  by_cases h : s.config.cstackCap = some s.cstack.length <;> simp [h, eq_comm]

theorem pushF_eq_ok {s t : State} {v : Word} :
    pushF s v = .ok t ↔ s.config.fstackCap ≠ some s.fstack.length ∧ t = s.setFstack (v :: s.fstack) := by
  unfold pushF stackPush
  by_cases h : s.config.fstackCap = some s.fstack.length <;> simp [h, eq_comm]

theorem pushF_eq_error {s : State} {v : Word} {f : Fault} :
    pushF s v = .error f ↔ s.config.fstackCap = some s.fstack.length ∧ f = .stackOverflow s := by
  unfold pushF stackPush
  by_cases h : s.config.fstackCap = some s.fstack.length <;> simp [h, eq_comm]

theorem popP_eq_ok {s t : State} {v : Word} :
    popP s = .ok (v, t) ↔ ∃ P, s.pstack = v :: P ∧ t = s.setPstack P := by
  unfold popP
  cases s.pstack <;> simp [stackPop, eq_comm]

theorem popP_eq_error {s : State} {f : Fault} : popP s = .error f ↔ s.pstack = [] ∧ f = .stackUnderflow s := by
  unfold popP
  cases s.pstack <;> simp [stackPop, eq_comm]

theorem popC_eq_ok {s t : State} {v : Word} :
    popC s = .ok (v, t) ↔ ∃ C, s.cstack = v :: C ∧ t = s.setCstack C := by
  unfold popC
  cases s.cstack <;> simp [stackPop, eq_comm]

theorem popC_eq_error {s : State} {f : Fault} : popC s = .error f ↔ s.cstack = [] ∧ f = .stackUnderflow s := by
  unfold popC
  cases s.cstack <;> simp [stackPop, eq_comm]

theorem lastF_eq_ok {s : State} {v : Word} : lastF s = .ok v ↔ ∃ F, s.fstack = v :: F := by
  unfold lastF
  cases s.fstack <;> simp [stackPop, eq_comm]

theorem lastF_eq_error {s : State} {f : Fault} : lastF s = .error f ↔ s.fstack = [] ∧ f = .stackUnderflow s := by
  unfold lastF
  cases s.fstack <;> simp [stackPop, eq_comm]

/-- `S[i]` is defined exactly for `i < len(S)`, and is then an element of the stack (`10_state.md` R34). -/
theorem stackIndex_eq_none {S : Stack} {i : Nat} : stackIndex S i = none ↔ S.length ≤ i := by
  simp [stackIndex]

theorem stackIndex_mem {S : Stack} {i : Nat} {v : Word} (h : stackIndex S i = some v) : v ∈ S := by
  simpa using List.mem_of_getElem? h

/-! ## The instruction pointer and the program store -/

@[simp] theorem State.advance_eq (s : State) : s.advance = s.setIp (s.ip + 1) := rfl

@[simp] theorem State.skip_eq (s : State) (k : Word) : s.skip k = s.setIp (s.ip + k) := rfl

/-- After the advance of the step cycle, `a0` is the offset the step began at. -/
theorem State.a0_advance (s : State) : s.advance.a0 = s.ip := by
  simp [State.a0]

theorem iFetch_eq_none {s : State} {a : Word} : iFetch s a = none ↔ s.plen ≤ a.toNat := by
  simp [iFetch, State.plen]

theorem iFetch_lt {s : State} {a w : Word} (h : iFetch s a = some w) : a.toNat < s.plen := by
  by_contra hn
  rw [iFetch_eq_none.mpr (by omega)] at h
  cases h

theorem fetchInstr_eq_ok {s : State} {i : Instr} :
    fetchInstr s = .ok i ↔ ∃ w, iFetch s s.ip = some w ∧ decode s.config w = .ok i := by
  unfold fetchInstr
  cases iFetch s s.ip with
  | none => simp
  | some w =>
    cases hd : decode s.config w with
    | ok j => simp [hd]
    | error e => cases e; simp [hd]

theorem fetchInstr_eq_error {s : State} {f : Fault} :
    fetchInstr s = .error f ↔
      (s.plen ≤ s.ip.toNat ∧ f = .noExec s) ∨
      (∃ w, iFetch s s.ip = some w ∧ decode s.config w = .error .illegalOp ∧ f = .illegalOp s) := by
  unfold fetchInstr
  cases hw : iFetch s s.ip with
  | none => simp [iFetch_eq_none.mp hw, eq_comm]
  | some w =>
    have := iFetch_lt hw
    have hn : ¬ s.plen ≤ s.ip.toNat := by omega
    cases hd : decode s.config w with
    | ok j => simp [hn, hd]
    | error e => cases e; simp [hn, hd, eq_comm]

/-! ## The data memory -/

theorem memRead_eq_ok {s : State} {a v : Word} :
    memRead s a = .ok v ↔ a.toNat < memWords ∧ v = s.mem.read a.toNat := by
  unfold memRead
  split
  · simp; omega
  · simp [eq_comm]; omega

theorem memRead_eq_error {s : State} {a : Word} {f : Fault} :
    memRead s a = .error f ↔ memWords ≤ a.toNat ∧ f = .writeOob s := by
  unfold memRead
  split <;> simp_all [eq_comm]

theorem memWrite_eq_ok {s t : State} {a v : Word} :
    memWrite s a v = .ok t ↔ a.toNat < memWords ∧ t = s.setMem (s.mem.write a.toNat v) := by
  unfold memWrite
  split
  · simp; omega
  · simp [eq_comm]; omega

theorem memWrite_eq_error {s : State} {a v : Word} {f : Fault} :
    memWrite s a v = .error f ↔ memWords ≤ a.toNat ∧ f = .writeOob s := by
  unfold memWrite
  split <;> simp_all [eq_comm]

/-! ## Sequencing -/

@[simp] theorem repeatTimes_zero (body : State → Res State) (s : State) : repeatTimes body 0 s = .ok s := rfl

@[simp] theorem repeatTimes_succ (body : State → Res State) (n : Nat) (s : State) :
    repeatTimes body (n + 1) s = body s >>= repeatTimes body n := rfl

/-- What every pass keeps, a repetition that completes keeps. -/
theorem repeatTimes_keeps {body : State → Res State} {p : State → Prop}
    (hb : ∀ s t, p s → body s = .ok t → p t) {n : Nat} {s t : State} (hs : p s)
    (h : repeatTimes body n s = .ok t) : p t := by
  induction n generalizing s with
  | zero => cases h; exact hs
  | succ n ih =>
    obtain ⟨u, hu, ht⟩ := bind_eq_ok.mp h
    exact ih (hb s u hs hu) ht

/-- A repetition that raises does so in one pass, which starts from a state the passes before it kept. -/
theorem repeatTimes_raises {body : State → Res State} {p : State → Prop}
    (hb : ∀ s t, p s → body s = .ok t → p t) {n : Nat} {s : State} {f : Fault} (hs : p s)
    (h : repeatTimes body n s = .error f) : ∃ u, p u ∧ body u = .error f := by
  induction n generalizing s with
  | zero => cases h
  | succ n ih =>
    rcases bind_eq_error.mp h with he | ⟨u, hu, ht⟩
    · exact ⟨s, hs, he⟩
    · exact ih (hb s u hs hu) ht

/-- Everything `do_call` can do when it completes (`44_control.md` R161). -/
theorem doCall_eq_ok {i : Imm} {s t : State} :
    doCall i s = .ok t ↔ ∃ target, stackIndex s.fstack i.toNat = some target ∧ target.toNat < s.plen ∧
      s.config.cstackCap ≠ some s.cstack.length ∧ s.config.cstackCap ≠ some (s.cstack.length + 1) ∧
      t = (s.setCstack (callMarker s.config s.cstack.length :: s.ip :: s.cstack)).setIp target := by
  unfold doCall
  cases stackIndex s.fstack i.toNat with
  | none => simp
  | some target =>
    by_cases hlt : s.plen ≤ target.toNat
    · simp [hlt]
    · simp only [hlt, if_false, bind_eq_ok, pushC_eq_ok, Option.some.injEq, exists_eq_left']
      constructor
      · rintro ⟨_, ⟨h1, rfl⟩, _, ⟨h2, rfl⟩, h⟩
        cases h
        exact ⟨by omega, h1, h2, rfl⟩
      · rintro ⟨-, h1, h2, rfl⟩
        exact ⟨_, ⟨h1, rfl⟩, _, ⟨h2, rfl⟩, rfl⟩

/-- Everything `do_call` can raise (`44_control.md` R161, R162). -/
theorem doCall_eq_error {i : Imm} {s : State} {f : Fault} (h : doCall i s = .error f) :
    (f = .badCall s ∧ (s.fstack.length ≤ i.toNat ∨
      ∃ target, stackIndex s.fstack i.toNat = some target ∧ s.plen ≤ target.toNat)) ∨
    (f = .stackOverflow s ∧ s.config.cstackCap = some s.cstack.length) ∨
    (f = .stackOverflow (s.setCstack (s.ip :: s.cstack)) ∧ s.config.cstackCap = some (s.cstack.length + 1)) := by
  unfold doCall at h
  split at h
  · next hn => cases h; exact .inl ⟨rfl, .inl (stackIndex_eq_none.mp hn)⟩
  · next target ht =>
    split at h
    · next hle => cases h; exact .inl ⟨rfl, .inr ⟨target, ht, hle⟩⟩
    · rcases bind_eq_error.mp h with he | ⟨u, hu, h⟩
      · obtain ⟨hc, rfl⟩ := pushC_eq_error.mp he
        exact .inr (.inl ⟨rfl, hc⟩)
      · obtain ⟨-, rfl⟩ := pushC_eq_ok.mp hu
        rcases bind_eq_error.mp h with he | ⟨v, -, hv⟩
        · obtain ⟨hc, rfl⟩ := pushC_eq_error.mp he
          exact .inr (.inr ⟨rfl, hc⟩)
        · cases hv

/-! ## Passes of the repeating instructions -/

/-- Everything a two-operand pass does when it completes (`42_arith_logic.md` R141). -/
theorem binaryPass_eq_ok {f : Word → Word → Word} {s t : State} :
    binaryPass f s = .ok t ↔ ∃ a b P, s.pstack = a :: b :: P ∧ s.config.pstackCap ≠ some P.length ∧
      t = s.setPstack (f a b :: P) := by
  simp only [binaryPass, bind_eq_ok, Prod.exists, popP_eq_ok, pushP_eq_ok]
  constructor
  · rintro ⟨a, _, ⟨P, hP, rfl⟩, b, _, ⟨Q, hQ, rfl⟩, hc, rfl⟩
    simp only [State.setPstack_pstack] at hQ
    subst hQ
    exact ⟨a, b, Q, hP, hc, rfl⟩
  · rintro ⟨a, b, P, hP, hc, rfl⟩
    exact ⟨a, _, ⟨_, hP, rfl⟩, b, _, ⟨P, rfl, rfl⟩, hc, rfl⟩

/-- Everything a two-operand pass can raise (`42_arith_logic.md` R142, `60_exceptions.md` R204): on an empty stack nothing is
popped, on a stack of one Word that Word is lost. -/
theorem binaryPass_eq_error {f : Word → Word → Word} {s : State} {e : Fault} (h : binaryPass f s = .error e) :
    (s.pstack.length < 2 ∧ e = .stackUnderflow (s.setPstack [])) ∨
    (∃ a b P, s.pstack = a :: b :: P ∧ s.config.pstackCap = some P.length ∧ e = .stackOverflow (s.setPstack P)) := by
  rcases bind_eq_error.mp h with he | ⟨⟨a, u⟩, hu, h⟩
  · obtain ⟨hs, rfl⟩ := popP_eq_error.mp he
    refine .inl ⟨by simp [hs], ?_⟩
    rw [← hs]; rfl
  · obtain ⟨P, hP, rfl⟩ := popP_eq_ok.mp hu
    rcases bind_eq_error.mp h with he | ⟨⟨b, u⟩, hu, h⟩
    · obtain ⟨hs, rfl⟩ := popP_eq_error.mp he
      simp only [State.setPstack_pstack] at hs
      subst hs
      exact .inl ⟨by simp [hP], rfl⟩
    · obtain ⟨Q, hQ, rfl⟩ := popP_eq_ok.mp hu
      simp only [State.setPstack_pstack] at hQ
      subst hQ
      obtain ⟨hc, rfl⟩ := pushP_eq_error.mp h
      exact .inr ⟨a, b, Q, hP, hc, rfl⟩

/-- Everything a compare pass does when it completes: the Word beneath the top leaves `P` (`43_branch.md` R150). -/
theorem comparePass_eq_ok {cond : Word → Word → Bool} {flag flag' : Bool} {s t : State} :
    comparePass cond flag s = .ok (flag', t) ↔ ∃ a b P, s.pstack = a :: b :: P ∧ s.config.pstackCap ≠ some P.length ∧
      flag' = (flag || cond a b) ∧ t = s.setPstack (a :: P) := by
  simp only [comparePass, bind_eq_ok, Prod.exists, popP_eq_ok, pushP_eq_ok]
  constructor
  · rintro ⟨a, _, ⟨P, hP, rfl⟩, b, _, ⟨Q, hQ, rfl⟩, _, ⟨hc, rfl⟩, h⟩
    cases h
    simp only [State.setPstack_pstack] at hQ
    subst hQ
    exact ⟨a, b, Q, hP, hc, rfl, rfl⟩
  · rintro ⟨a, b, P, hP, hc, rfl, rfl⟩
    exact ⟨a, _, ⟨_, hP, rfl⟩, b, _, ⟨P, rfl, rfl⟩, _, ⟨hc, rfl⟩, rfl⟩

/-- Everything a compare pass can raise. -/
theorem comparePass_eq_error {cond : Word → Word → Bool} {flag : Bool} {s : State} {e : Fault}
    (h : comparePass cond flag s = .error e) :
    (s.pstack.length < 2 ∧ e = .stackUnderflow (s.setPstack [])) ∨
    (∃ a b P, s.pstack = a :: b :: P ∧ s.config.pstackCap = some P.length ∧ e = .stackOverflow (s.setPstack P)) := by
  refine binaryPass_eq_error (f := fun a _ => a) ?_
  rcases bind_eq_error.mp h with he | ⟨⟨a, u⟩, hu, h⟩
  · exact bind_eq_error.mpr (.inl he)
  · refine bind_eq_error.mpr (.inr ⟨_, hu, ?_⟩)
    rcases bind_eq_error.mp h with he | ⟨⟨b, u⟩, hu, h⟩
    · exact bind_eq_error.mpr (.inl he)
    · refine bind_eq_error.mpr (.inr ⟨_, hu, ?_⟩)
      rcases bind_eq_error.mp h with he | ⟨v, -, hv⟩
      · exact he
      · cases hv

/-! ## The step cycle and the host's sequencing -/

/-- A step that completes decoded an instruction, which completed. -/
theorem step_eq_next {s t : State} (h : step s = .next t) :
    ∃ i, fetchInstr s = .ok i ∧ exec i s.advance = .next t := by
  unfold step at h
  split at h
  · next i hi => exact ⟨i, hi, h⟩
  · cases h

/-- A step that raises failed to fetch or decode, or decoded an instruction, which raised. -/
theorem step_eq_fault {s : State} {f : Fault} (h : step s = .fault f) :
    fetchInstr s = .error f ∨ ∃ i, fetchInstr s = .ok i ∧ exec i s.advance = .fault f := by
  unfold step at h
  split at h
  · next i hi => exact .inr ⟨i, hi, h⟩
  · next f' hf => cases h; exact .inl hf

theorem kindPlace_injective : Function.Injective kindPlace := by
  intro a b h
  cases a <;> cases b <;> first | rfl | cases h

/-- `RESULT_CODE` is injective (D18). -/
theorem resultCode_injective : Function.Injective resultCode :=
  Config.resultNumbers.injective.comp kindPlace_injective

/-- What the host gets from a step that completes and from one that raises. -/
theorem hostStep_of_step {s : State} :
    (∀ t, step s = .next t → hostStep s = some (.ok, t)) ∧
      ∀ f, step s = .fault f → hostStep s = some (f.kind, f.left) :=
  ⟨fun _ h => by simp [hostStep, h], fun _ h => by simp [hostStep, h]⟩

@[simp] theorem hostSteps_zero (s : State) : hostSteps 0 s = .next s := rfl

theorem hostSteps_succ_of_next {s t : State} (n : Nat) (h : step s = .next t) : hostSteps (n + 1) s = hostSteps n t := by
  simp [hostSteps, h]

theorem hostSteps_succ_of_fault {s : State} {f : Fault} (n : Nat) (h : step s = .fault f) :
    hostSteps (n + 1) s = .fault f := by
  simp [hostSteps, h]

end Sys2Proof.Machine
end

