-- ==== Sys2Proof/Laws/Exec.lean ====
section
/-! SUPPORT. What each arm of exec runs in each phase, once, so that no proof unfolds exec or a meaning. -/

namespace Sys2Proof.Machine

theorem exec_push_warmup (v : Imm) {s : State} (h : s.phase = .warmup) :
    exec (.push v) s = finish (.ok (s.skip (zext v))) := by
  simp only [exec, execPush, byPhase_warmup h]

theorem exec_push_recital (v : Imm) {s : State} (h : s.phase = .recital) :
    exec (.push v) s = finish (repeatTimes pushLiteral v.toNat s) := by
  simp only [exec, execPush, byPhase_recital h]

theorem exec_pop_warmup (v : Imm) {s : State} (h : s.phase = .warmup) :
    exec (.pop v) s = finish (ignoredInWarmup s) := by
  simp only [exec, execPop, byPhase_warmup h]

theorem exec_pop_recital (v : Imm) {s : State} (h : s.phase = .recital) :
    exec (.pop v) s = finish (repeatTimes discardTop v.toNat s) := by
  simp only [exec, execPop, byPhase_recital h]

theorem exec_dup_warmup (v : Imm) {s : State} (h : s.phase = .warmup) :
    exec (.dup v) s = finish (ignoredInWarmup s) := by
  simp only [exec, execDup, byPhase_warmup h]

theorem exec_dup_recital (v : Imm) {s : State} (h : s.phase = .recital) :
    exec (.dup v) s = finish (repeatTimes duplicateTop v.toNat s) := by
  simp only [exec, execDup, byPhase_recital h]

theorem exec_add_warmup (v : Imm) {s : State} (h : s.phase = .warmup) :
    exec (.add v) s = finish (ignoredInWarmup s) := by
  simp only [exec, execAdd, byPhase_warmup h]

theorem exec_add_recital (v : Imm) {s : State} (h : s.phase = .recital) :
    exec (.add v) s = finish (binaryRepeated satAdd v s) := by
  simp only [exec, execAdd, byPhase_recital h]

theorem exec_dif_warmup (v : Imm) {s : State} (h : s.phase = .warmup) :
    exec (.dif v) s = finish (ignoredInWarmup s) := by
  simp only [exec, execDif, byPhase_warmup h]

theorem exec_dif_recital (v : Imm) {s : State} (h : s.phase = .recital) :
    exec (.dif v) s = finish (binaryRepeated absDiff v s) := by
  simp only [exec, execDif, byPhase_recital h]

theorem exec_mul_warmup (v : Imm) {s : State} (h : s.phase = .warmup) :
    exec (.mul v) s = finish (ignoredInWarmup s) := by
  simp only [exec, execMul, byPhase_warmup h]

theorem exec_mul_recital (v : Imm) {s : State} (h : s.phase = .recital) :
    exec (.mul v) s = finish (binaryRepeated satMul v s) := by
  simp only [exec, execMul, byPhase_recital h]

theorem exec_div_warmup (v : Imm) {s : State} (h : s.phase = .warmup) :
    exec (.div v) s = finish (ignoredInWarmup s) := by
  simp only [exec, execDiv, byPhase_warmup h]

theorem exec_div_recital (v : Imm) {s : State} (h : s.phase = .recital) :
    exec (.div v) s = finish (zeroOrOperand divide v s) := by
  simp only [exec, execDiv, byPhase_recital h]

theorem exec_rem_warmup (v : Imm) {s : State} (h : s.phase = .warmup) :
    exec (.rem v) s = finish (ignoredInWarmup s) := by
  simp only [exec, execRem, byPhase_warmup h]

theorem exec_rem_recital (v : Imm) {s : State} (h : s.phase = .recital) :
    exec (.rem v) s = finish (zeroOrOperand remainder v s) := by
  simp only [exec, execRem, byPhase_recital h]

theorem exec_and_warmup (v : Imm) {s : State} (h : s.phase = .warmup) :
    exec (.and v) s = finish (ignoredInWarmup s) := by
  simp only [exec, execAnd, byPhase_warmup h]

theorem exec_and_recital (v : Imm) {s : State} (h : s.phase = .recital) :
    exec (.and v) s = finish (binaryRepeated (fun a b => a &&& b) v s) := by
  simp only [exec, execAnd, byPhase_recital h]

theorem exec_or_warmup (v : Imm) {s : State} (h : s.phase = .warmup) :
    exec (.or v) s = finish (ignoredInWarmup s) := by
  simp only [exec, execOr, byPhase_warmup h]

theorem exec_or_recital (v : Imm) {s : State} (h : s.phase = .recital) :
    exec (.or v) s = finish (binaryRepeated (fun a b => a ||| b) v s) := by
  simp only [exec, execOr, byPhase_recital h]

theorem exec_xor_warmup (v : Imm) {s : State} (h : s.phase = .warmup) :
    exec (.xor v) s = finish (ignoredInWarmup s) := by
  simp only [exec, execXor, byPhase_warmup h]

theorem exec_xor_recital (v : Imm) {s : State} (h : s.phase = .recital) :
    exec (.xor v) s = finish (binaryRepeated (fun a b => a ^^^ b) v s) := by
  simp only [exec, execXor, byPhase_recital h]

theorem exec_shl_warmup (v : Imm) {s : State} (h : s.phase = .warmup) :
    exec (.shl v) s = finish (ignoredInWarmup s) := by
  simp only [exec, execShl, byPhase_warmup h]

theorem exec_shl_recital (v : Imm) {s : State} (h : s.phase = .recital) :
    exec (.shl v) s = finish (zeroOrOperand shiftLeft v s) := by
  simp only [exec, execShl, byPhase_recital h]

theorem exec_shr_warmup (v : Imm) {s : State} (h : s.phase = .warmup) :
    exec (.shr v) s = finish (ignoredInWarmup s) := by
  simp only [exec, execShr, byPhase_warmup h]

theorem exec_shr_recital (v : Imm) {s : State} (h : s.phase = .recital) :
    exec (.shr v) s = finish (zeroOrOperand shiftRight v s) := by
  simp only [exec, execShr, byPhase_recital h]

theorem exec_beq_warmup (v : Imm) {s : State} (h : s.phase = .warmup) :
    exec (.beq v) s = finish (ignoredInWarmup s) := by
  simp only [exec, execBeq, byPhase_warmup h]

theorem exec_beq_recital (v : Imm) {s : State} (h : s.phase = .recital) :
    exec (.beq v) s = finish (branch condBeq v s) := by
  simp only [exec, execBeq, byPhase_recital h]

theorem exec_bne_warmup (v : Imm) {s : State} (h : s.phase = .warmup) :
    exec (.bne v) s = finish (ignoredInWarmup s) := by
  simp only [exec, execBne, byPhase_warmup h]

theorem exec_bne_recital (v : Imm) {s : State} (h : s.phase = .recital) :
    exec (.bne v) s = finish (branch condBne v s) := by
  simp only [exec, execBne, byPhase_recital h]

theorem exec_bgt_warmup (v : Imm) {s : State} (h : s.phase = .warmup) :
    exec (.bgt v) s = finish (ignoredInWarmup s) := by
  simp only [exec, execBgt, byPhase_warmup h]

theorem exec_bgt_recital (v : Imm) {s : State} (h : s.phase = .recital) :
    exec (.bgt v) s = finish (branch condBgt v s) := by
  simp only [exec, execBgt, byPhase_recital h]

theorem exec_blt_warmup (v : Imm) {s : State} (h : s.phase = .warmup) :
    exec (.blt v) s = finish (ignoredInWarmup s) := by
  simp only [exec, execBlt, byPhase_warmup h]

theorem exec_blt_recital (v : Imm) {s : State} (h : s.phase = .recital) :
    exec (.blt v) s = finish (branch condBlt v s) := by
  simp only [exec, execBlt, byPhase_recital h]

theorem exec_fun_warmup (v : Imm) {s : State} (h : s.phase = .warmup) :
    exec (.fun_ v) s = finish (pushF s s.a0) := by
  simp only [exec, execFun, byPhase_warmup h]

theorem exec_fun_recital (v : Imm) {s : State} (h : s.phase = .recital) :
    exec (.fun_ v) s = finish (.ok s) := by
  simp only [exec, execFun, byPhase_recital h]

theorem exec_call_warmup (v : Imm) {s : State} (h : s.phase = .warmup) :
    exec (.call v) s = finish (ignoredInWarmup s) := by
  simp only [exec, execCall, byPhase_warmup h]

theorem exec_call_recital (v : Imm) {s : State} (h : s.phase = .recital) :
    exec (.call v) s = finish (doCall v s) := by
  simp only [exec, execCall, byPhase_recital h]

theorem exec_ret_warmup (v : Imm) {s : State} (h : s.phase = .warmup) :
    exec (.ret v) s = finish (ignoredInWarmup s) := by
  simp only [exec, execRet, byPhase_warmup h]

theorem exec_ret_recital (v : Imm) {s : State} (h : s.phase = .recital) :
    exec (.ret v) s = finish (returnFromCall s) := by
  simp only [exec, execRet, byPhase_recital h]

theorem exec_loop_warmup (v : Imm) {s : State} (h : s.phase = .warmup) :
    exec (.loop v) s = finish (ignoredInWarmup s) := by
  simp only [exec, execLoop, byPhase_warmup h]

theorem exec_loop_recital (v : Imm) {s : State} (h : s.phase = .recital) :
    exec (.loop v) s = finish (enterLoop v s) := by
  simp only [exec, execLoop, byPhase_recital h]

theorem exec_iter_warmup (v : Imm) {s : State} (h : s.phase = .warmup) :
    exec (.iter v) s = finish (ignoredInWarmup s) := by
  simp only [exec, execIter, byPhase_warmup h]

theorem exec_iter_recital (v : Imm) {s : State} (h : s.phase = .recital) :
    exec (.iter v) s = finish (iterate s) := by
  simp only [exec, execIter, byPhase_recital h]

theorem exec_exe_warmup (v : Imm) {s : State} (h : s.phase = .warmup) :
    exec (.exe v) s = finish (enterRecital s) := by
  simp only [exec, execExe, byPhase_warmup h]

theorem exec_exe_recital (v : Imm) {s : State} (h : s.phase = .recital) :
    exec (.exe v) s = finish (raise .endReached (s.setPhase .recital)) := by
  simp only [exec, execExe, byPhase_recital h]

theorem exec_sto_warmup (v : Imm) {s : State} (h : s.phase = .warmup) :
    exec (.sto v) s = finish (ignoredInWarmup s) := by
  simp only [exec, execSto, byPhase_warmup h]

theorem exec_sto_recital (v : Imm) {s : State} (h : s.phase = .recital) :
    exec (.sto v) s = finish (storeTop v s) := by
  simp only [exec, execSto, byPhase_recital h]

theorem exec_lod_warmup (v : Imm) {s : State} (h : s.phase = .warmup) :
    exec (.lod v) s = finish (ignoredInWarmup s) := by
  simp only [exec, execLod, byPhase_warmup h]

theorem exec_lod_recital (v : Imm) {s : State} (h : s.phase = .recital) :
    exec (.lod v) s = finish (loadWord v s) := by
  simp only [exec, execLod, byPhase_recital h]

theorem exec_len_warmup (v : Imm) {s : State} (h : s.phase = .warmup) :
    exec (.len v) s = finish (ignoredInWarmup s) := by
  simp only [exec, execLen, byPhase_warmup h]

theorem exec_len_recital (v : Imm) {s : State} (h : s.phase = .recital) :
    exec (.len v) s = finish (pushDepth s) := by
  simp only [exec, execLen, byPhase_recital h]

end Sys2Proof.Machine
end

