-- ==== Sys2Proof/Laws/PerInstr.lean ====
section
/-! SUPPORT. The family EncodedFields: the two fields of an instruction's encoding (`30_encoding.md` R70, R71). -/

namespace Sys2Proof.Laws.EncodedFields

/-- The high 64 bits of an instruction's encoding are its tag, the low 64 bits its immediate. -/
def Statement (i : Instr) : Prop :=
  ∀ c : Config, tagField (encode c i) = BitVec.ofNat 64 (tagOf c i.opcode) ∧ immField (encode c i) = i.var

theorem statement_holds (i : Instr) : Statement i := fun _ => ⟨tagField_append _ _, immField_append _ _⟩

theorem push (var : Imm) : Statement (.push var) := statement_holds _
theorem pop (var : Imm) : Statement (.pop var) := statement_holds _
theorem dup (var : Imm) : Statement (.dup var) := statement_holds _
theorem add (var : Imm) : Statement (.add var) := statement_holds _
theorem dif (var : Imm) : Statement (.dif var) := statement_holds _
theorem mul (var : Imm) : Statement (.mul var) := statement_holds _
theorem div (var : Imm) : Statement (.div var) := statement_holds _
theorem rem (var : Imm) : Statement (.rem var) := statement_holds _
theorem and (var : Imm) : Statement (.and var) := statement_holds _
theorem or (var : Imm) : Statement (.or var) := statement_holds _
theorem xor (var : Imm) : Statement (.xor var) := statement_holds _
theorem shl (var : Imm) : Statement (.shl var) := statement_holds _
theorem shr (var : Imm) : Statement (.shr var) := statement_holds _
theorem beq (var : Imm) : Statement (.beq var) := statement_holds _
theorem bne (var : Imm) : Statement (.bne var) := statement_holds _
theorem bgt (var : Imm) : Statement (.bgt var) := statement_holds _
theorem blt (var : Imm) : Statement (.blt var) := statement_holds _
theorem fun_ (var : Imm) : Statement (.fun_ var) := statement_holds _
theorem call (var : Imm) : Statement (.call var) := statement_holds _
theorem ret (var : Imm) : Statement (.ret var) := statement_holds _
theorem loop (var : Imm) : Statement (.loop var) := statement_holds _
theorem iter (var : Imm) : Statement (.iter var) := statement_holds _
theorem exe (var : Imm) : Statement (.exe var) := statement_holds _
theorem sto (var : Imm) : Statement (.sto var) := statement_holds _
theorem lod (var : Imm) : Statement (.lod var) := statement_holds _
theorem len (var : Imm) : Statement (.len var) := statement_holds _

end Sys2Proof.Laws.EncodedFields
end

