-- ==== Sys2Proof/Tests/Slice0.lean ====
section
/-! SUPPORT. Tests: the decoding of every instruction from a Word written out from `30_encoding.md` R70, R75; single steps from
the vectors of `95_test_vectors.md` section 3; and for each obligation with hypotheses a state that meets them. Stacks are
written top first, where the vectors write them bottom first. -/

namespace Sys2Proof.Tests

open Sys2Proof.Machine Sys2Proof.Claims

/-! ## Well-formedness: the one check, on each side of its bound -/

theorem test_wellFormed_largest : WellFormed Config.default (.push 0xFFFFFFFF) = true := by decide

theorem test_wellFormed_refuses_bit_32 : WellFormed Config.default (.push 0x100000000) = false := by decide

/-- With `IMM_BITS` 64 the same instruction is well formed. -/
theorem test_wellFormed_wide : WellFormed { Config.default with immBits := .w64 } (.push 0x100000000) = true := by decide

/-! ## Decoding: tag in bits 127 to 64, immediate in bits 63 to 0 (R70), tags as in R75 -/

theorem test_decode_push : decodeTableWord 128 0x00000000000000000000000000000003 = some (.push 3) := by decide
theorem test_decode_pop : decodeTableWord 128 0x00000000000000010000000000000005 = some (.pop 5) := by decide
theorem test_decode_dup : decodeTableWord 128 0x00000000000000020000000000000001 = some (.dup 1) := by decide
theorem test_decode_add : decodeTableWord 128 0x00000000000000030000000000000002 = some (.add 2) := by decide
theorem test_decode_dif : decodeTableWord 128 0x00000000000000040000000000000001 = some (.dif 1) := by decide
theorem test_decode_mul : decodeTableWord 128 0x00000000000000050000000080000000 = some (.mul 0x80000000) := by decide
theorem test_decode_div : decodeTableWord 128 0x00000000000000060000000000000000 = some (.div 0) := by decide
theorem test_decode_rem : decodeTableWord 128 0x00000000000000070000000000000007 = some (.rem 7) := by decide
theorem test_decode_and : decodeTableWord 128 0x00000000000000080000000000000001 = some (.and 1) := by decide
theorem test_decode_or : decodeTableWord 128 0x00000000000000090000000000000001 = some (.or 1) := by decide
theorem test_decode_xor : decodeTableWord 128 0x000000000000000A0000000000000001 = some (.xor 1) := by decide
theorem test_decode_shl : decodeTableWord 128 0x000000000000000B000000000000007F = some (.shl 127) := by decide
theorem test_decode_shr : decodeTableWord 128 0x000000000000000C0000000000000080 = some (.shr 128) := by decide
theorem test_decode_beq : decodeTableWord 128 0x000000000000000D0000000000000001 = some (.beq 1) := by decide
theorem test_decode_bne : decodeTableWord 128 0x000000000000000E0000000000000002 = some (.bne 2) := by decide
theorem test_decode_bgt : decodeTableWord 128 0x000000000000000F0000000000000003 = some (.bgt 3) := by decide
theorem test_decode_blt : decodeTableWord 128 0x00000000000000100000000000000004 = some (.blt 4) := by decide
theorem test_decode_fun : decodeTableWord 128 0x00000000000000110000000000000000 = some (.fun_ 0) := by decide
theorem test_decode_call : decodeTableWord 128 0x00000000000000120000000000000003 = some (.call 3) := by decide
theorem test_decode_ret : decodeTableWord 128 0x00000000000000130000000000000000 = some (.ret 0) := by decide
theorem test_decode_loop : decodeTableWord 128 0x00000000000000140000000000000003 = some (.loop 3) := by decide
theorem test_decode_iter : decodeTableWord 128 0x00000000000000150000000000000000 = some (.iter 0) := by decide
theorem test_decode_exe : decodeTableWord 128 0x00000000000000160000000000000000 = some (.exe 0) := by decide
theorem test_decode_sto : decodeTableWord 128 0x00000000000000170000000100000005 = some (.sto 5) := by decide
theorem test_decode_lod : decodeTableWord 128 0x000000000000001800000000000003FF = some (.lod 1023) := by decide
theorem test_decode_len : decodeTableWord 128 0x0000000000000019FFFFFFFFFFFFFFFF = some (.len 0xFFFFFFFF) := by decide

/-- Tag 26 is the first illegal tag, and every bit of the tag counts (R72). -/
theorem test_decode_illegal : decodeTableWord 128 0x000000000000001A0000000000000000 = none ∧
    decodeTableWord 128 0x80000000000000000000000000000000 = none := by decide

/-- `95_test_vectors.md` section 2, the column for `IMM_BITS` 64. -/
theorem test_decode_wide : (decode { Config.default with immBits := .w64 } 0x00000000000000170000000100000005).toOption =
    some (.sto 0x100000005) := by decide

/-- `95_test_vectors.md` section 2: "encode keeps all 64 bits". -/
theorem test_encode : encode Config.default (.call 3) = 0x00000000000000120000000000000003 ∧
    encode Config.default (.lod 0x100000005) = 0x00000000000000180000000100000005 := by decide

/-! ## Single steps -/

/-- What exec answers, as a result kind and a state. -/
def ran (i : Instr) (s : State) : Option (ResultKind × State) :=
  match exec i s with
  | .next t => some (.ok, t)
  | .fault f => some (f.kind, f.left)
  | .refused _ => none

/-- A Recital state after the advance past a word at offset 4 of a ten-Word program with 16 and 4 at offsets 5 and 6. -/
def inRecital (P C F : Stack) : State :=
  { State.reset with
    phase := .recital, ip := 5, pstack := P, cstack := C, fstack := F, imem := [0, 0, 0, 0, 0, 16, 4, 0, 0, 77] }

/-- A Warmup state over the same program. -/
def inWarmup (F : Stack) : State := { inRecital [] [] F with phase := .warmup }

/-- The kind and `P` after an instruction in Recital. -/
def onP (i : Instr) (P : Stack) : Option (ResultKind × Stack) :=
  (ran i (inRecital P [] [])).map fun r => (r.1, r.2.pstack)

/-- The kind, `ip`, `P` and `C` after an instruction in Recital. -/
def onC (i : Instr) (s : State) : Option (ResultKind × Word × Stack × Stack) :=
  (ran i s).map fun r => (r.1, r.2.ip, r.2.pstack, r.2.cstack)

theorem test_push : onC (.push 2) (inRecital [] [] []) = some (.ok, 7, [4, 16], []) := by decide
theorem test_push_past_the_end :
    onC (.push 3) { inRecital [] [] [] with ip := 9 } = some (.stackUnderflow, 10, [77], []) := by decide

theorem test_pop : onP (.pop 2) [3, 2, 1] = some (.ok, [1]) := by decide
theorem test_pop_underflow : onP (.pop 3) [2, 1] = some (.stackUnderflow, []) := by decide

theorem test_dup : onP (.dup 2) [7] = some (.ok, [7, 7, 7]) := by decide
theorem test_dup_empty : onP (.dup 3) [] = some (.ok, [0, 0, 0]) := by decide

theorem test_add_twice : onP (.add 2) [3, 2, 1] = some (.ok, [6]) := by decide
theorem test_add_saturates : onP (.add 1) [1, maxWord] = some (.ok, [maxWord]) := by decide

theorem test_dif_twice : onP (.dif 2) [1, 4, 10] = some (.ok, [7]) := by decide
theorem test_dif_of_largest : onP (.dif 1) [maxWord, 0] = some (.ok, [maxWord]) := by decide

theorem test_mul_exact : onP (.mul 1) [0x10000000000000001, 0xFFFFFFFFFFFFFFFF] = some (.ok, [maxWord]) := by decide
theorem test_mul_saturates : onP (.mul 1) [0x10000000000000000, 0x10000000000000000] = some (.ok, [maxWord]) := by decide

theorem test_div : onP (.div 0) [5, 20] = some (.ok, [4]) ∧ onP (.div 3) [20] = some (.ok, [6]) := by decide
theorem test_div_by_zero : onP (.div 0) [0, 20] = some (.ok, [maxWord]) := by decide

theorem test_rem : onP (.rem 0) [6, 20] = some (.ok, [2]) ∧ onP (.rem 7) [20] = some (.ok, [6]) := by decide
theorem test_rem_by_zero : onP (.rem 0) [0, 20] = some (.ok, [maxWord]) := by decide

theorem test_and : onP (.and 2) [12, 6, 7] = some (.ok, [4]) := by decide
theorem test_or : onP (.or 1) [10, 12] = some (.ok, [14]) := by decide
theorem test_or_underflow : onP (.or 1) [1] = some (.stackUnderflow, []) := by decide
theorem test_xor : onP (.xor 1) [10, 12] = some (.ok, [6]) := by decide

theorem test_shl : onP (.shl 0) [4, 1] = some (.ok, [16]) := by decide
theorem test_shl_drops : onP (.shl 127) [3] = some (.ok, [0x80000000000000000000000000000000]) := by decide
theorem test_shr : onP (.shr 0) [8, 256] = some (.ok, [1]) := by decide
theorem test_shr_far : onP (.shr 127) [0x80000000000000000000000000000000] = some (.ok, [1]) := by decide

/-- A shift by 128 runs, and the value it pushes is the free one (log 5). -/
theorem test_shl_wide : onP (.shl 0) [128, 1] = some (.ok, [Config.shiftWide .shl 1 128]) := rfl

theorem test_beq_taken : onC (.beq 1) (inRecital [8, 7] [] [2, 0]) = some (.ok, 2, [], [1, 6]) := by decide
theorem test_beq_not_taken : onC (.beq 1) (inRecital [7, 7] [] [2, 0]) = some (.ok, 5, [], []) := by decide
theorem test_bne_taken : onC (.bne 2) (inRecital [2, 2, 1] [] [6, 2, 0]) = some (.ok, 6, [], [1, 6]) := by decide
theorem test_bne_not_taken : onC (.bne 2) (inRecital [3, 2, 1] [] [6, 2, 0]) = some (.ok, 5, [], []) := by decide
theorem test_bgt_taken : onC (.bgt 1) (inRecital [7, 8] [] [2, 0]) = some (.ok, 2, [], [1, 6]) := by decide
theorem test_bgt_not_taken : onC (.bgt 1) (inRecital [8, 7] [] [2, 0]) = some (.ok, 5, [], []) := by decide
theorem test_blt_on_equal : onC (.blt 1) (inRecital [7, 7] [] [2, 0]) = some (.ok, 2, [], [1, 6]) := by decide
theorem test_blt_bad_call : onC (.blt 1) (inRecital [7, 8] [] [0]) = some (.badCall, 6, [], []) := by decide

theorem test_fun_recital : ran (.fun_ 5) (inRecital [1] [] []) = some (.ok, inRecital [1] [] []) := by decide
theorem test_fun_warmup : ran (.fun_ 5) (inWarmup [1]) = some (.ok, inWarmup [4, 1]) := by decide

theorem test_call : onC (.call 0) { inRecital [] [1, 3] [6, 0] with ip := 12 } = some (.ok, 0, [], [3, 12, 1, 3]) := by
  decide
theorem test_call_mark_before :
    onC (.call 0) { inRecital [] [1, 3] [6, 0] with ip := 12, config := { Config.default with callMark := .before } } =
      some (.ok, 0, [], [2, 12, 1, 3]) := by decide

theorem test_ret : ran (.ret 0) (inRecital [] [1, 12] []) = some (.ok, { inRecital [] [] [] with ebp := 1, ip := 12 }) := by
  decide
theorem test_ret_underflow :
    ran (.ret 0) (inRecital [] [5] []) = some (.stackUnderflow, { inRecital [] [] [] with ebp := 5 }) := by decide

theorem test_loop : onC (.loop 3) { inRecital [] [] [] with ip := 2 } = some (.ok, 2, [], [3, 2]) := by decide
theorem test_loop_overflow :
    onC (.loop 3) { inRecital [] [] [] with config := { Config.default with cstackCap := some 1 } } =
      some (.stackOverflow, 5, [], [5]) := by decide

theorem test_iter : onC (.iter 0) (inRecital [] [3, 2] []) = some (.ok, 5, [], [2, 2]) ∧
    onC (.iter 0) (inRecital [] [1, 2] []) = some (.ok, 5, [], []) ∧
    onC (.iter 0) (inRecital [] [0, 2] []) = some (.ok, 5, [], []) := by decide
theorem test_iter_redirect :
    onC (.iter 0) { inRecital [] [3, 2] [] with config := { Config.default with iterRedirect := true } } =
      some (.ok, 2, [], [2, 2]) := by decide

theorem test_exe_recital : ran (.exe 0) (inRecital [27] [] []) = some (.endReached, inRecital [27] [] []) := by decide
theorem test_exe_warmup :
    ran (.exe 0) (inWarmup [6, 0]) = some (.ok, { inRecital [] [] [6, 0] with ip := 6 }) := by decide

theorem test_sto : (ran (.sto 1023) (inRecital [2, 1] [] [])).map (fun r => (r.1, r.2.pstack, r.2.mem)) =
    some (.ok, [1], [(1023, 2)]) := by decide
theorem test_sto_out_of_bounds : onP (.sto 1024) [42] = some (.writeOob, []) ∧
    onP (.sto 1024) [] = some (.stackUnderflow, []) := by decide

theorem test_lod : onC (.lod 5) { inRecital [] [] [] with mem := [(5, 42)] } = some (.ok, 5, [42], []) := by decide
theorem test_lod_out_of_bounds : onP (.lod 1024) [] = some (.writeOob, []) := by decide

theorem test_len : onP (.len 0) [9, 9, 9] = some (.ok, [3, 9, 9, 9]) := by decide
theorem test_len_less_ebp : onC (.len 0) { inRecital [9, 9, 9] [] [] with ebp := 2 } = some (.ok, 5, [1, 9, 9, 9], []) := by
  decide

/-- `Push` in Warmup skips without a bounds test (R106). -/
theorem test_push_warmup : ran (.push 100) (inWarmup []) = some (.ok, { inWarmup [] with ip := 105 }) := by decide

/-- A write of the reset value leaves no cell, and cells stay in order. -/
theorem test_memory_canonical : Memory.write [(3, 1), (7, 2)] 5 9 = [(3, 1), (5, 9), (7, 2)] ∧
    Memory.write [(3, 1), (7, 2)] 7 0 = [(3, 1)] := by decide

/-- The first step after reset runs the Word placed by withFetchWord. -/
theorem test_first_step :
    hostStep (State.reset.withFetchWord 128 0x00000000000000110000000000000000) =
      some (.ok, { State.reset with ip := 1, fstack := [0], imem := [0x00000000000000110000000000000000] }) := by decide

/-- `60_exceptions.md` R205: nothing to fetch, and an illegal tag; neither moves `ip`. -/
theorem test_failed_fetch : hostStep State.reset = some (.noExec, State.reset) ∧
    hostStep (State.reset.withFetchWord 128 0x000000000000001A0000000000000000) =
      some (.illegalOp, { State.reset with imem := [0x000000000000001A0000000000000000] }) := by decide

/-- `30_encoding.md` R91, R94: `fun 0 push 2 0x0f 30`. -/
theorem test_assemble : assemble Config.default
    ['f', 'u', 'n', ' ', '0', '\n', 'p', 'u', 's', 'h', ' ', '2', ' ', '0', 'x', '0', 'f', ' ', '3', '0'] =
      .words [0x00000000000000110000000000000000, 2, 15, 30] := by decide

/-- The text of scenario A (`90_conflicts.md` C2): `fun push`. -/
theorem test_assemble_mnemonic_twice : assemble Config.default ['f', 'u', 'n', ' ', 'p', 'u', 's', 'h'] =
    .formatError .number (some ['p', 'u', 's', 'h']) := by decide

/-- The source's scenario C (`95_test_vectors.md` S9): `push 3 add`. -/
theorem test_assemble_trailing : assemble Config.default ['p', 'u', 's', 'h', ' ', '3', ' ', 'a', 'd', 'd'] =
    .formatError .number none := by decide

/-! ## States that meet the hypotheses of the obligations, each clause at a boundary of its range -/

/-- A configuration with every stack bounded by two Words. -/
def tight : Config := { Config.default with pstackCap := some 2, cstackCap := some 2, fstackCap := some 2 }

/-- A Recital state under the tight configuration. -/
def inTight (P C F : Stack) : State := { inRecital P C F with config := tight }

/-- `fun 0`, `push 1`, the literal 5, `exe 0`, installed after reset. -/
def loaded : State :=
  { State.reset with imem :=
      [0x00000000000000110000000000000000, 0x00000000000000000000000000000001, 5, 0x00000000000000160000000000000000] }

theorem witness_DecodeInvertsEncode : Config.default.wf = true ∧ tight.wf = true ∧
    WellFormed Config.default (.push 0xFFFFFFFF) = true := by decide

/-- A Word with no dropped bit, and one with a dropped bit. -/
theorem witness_EncodeInvertsDecodeWhenDroppedBitsZero : Config.default.wf = true ∧
    decode Config.default 0x00000000000000170000000000000005 = .ok (.sto 5) ∧
    decode Config.default 0x00000000000000170000000100000005 = .ok (.sto 5) := ⟨by decide, rfl, rfl⟩

theorem witness_DecodeAnswersByTheWholeTag : Config.default.wf = true ∧
    (0x0000000000000019FFFFFFFFFFFFFFFF : Word).toNat / 2 ^ 64 = 25 ∧
    (0x000000000000001A0000000000000000 : Word).toNat / 2 ^ 64 = 26 := by decide

theorem witness_StepRunsTheDecodedInstruction : iFetch loaded loaded.ip = some 0x00000000000000110000000000000000 ∧
    decode loaded.config 0x00000000000000110000000000000000 = .ok (.fun_ 0) := ⟨by decide, rfl⟩

theorem witness_FailedFetchChangesNothing : loaded.plen ≤ ({ loaded with ip := 4 } : State).ip.toNat ∧
    ({ loaded with imem := [0x000000000000001A0000000000000000] } : State).imem[0]? =
      some 0x000000000000001A0000000000000000 := by decide

theorem witness_OtherOpcodesIgnoredInWarmup : (inWarmup []).phase = .warmup ∧ (Instr.len 0).opcode ≠ .fun_ ∧
    (Instr.len 0).opcode ≠ .push ∧ (Instr.len 0).opcode ≠ .exe := by decide

/-- The skip that reaches the end exactly. -/
theorem witness_PushInWarmupSkipsItsLiterals : (inWarmup []).phase = .warmup ∧
    (inWarmup []).plen ≤ ((inWarmup []).ip + BitVec.ofNat 128 (5 : Imm).toNat).toNat := by decide

/-- Room for one more entry, and none. -/
theorem witness_FunInWarmupRecordsItsOffset : loaded.phase = .warmup ∧
    iFetch loaded loaded.ip = some 0x00000000000000110000000000000000 ∧
    decode loaded.config 0x00000000000000110000000000000000 = .ok (.fun_ 0) ∧
    decode tight 0x00000000000000110000000000000000 = .ok (.fun_ 0) ∧
    hasRoom tight.fstackCap [0] 1 = true ∧
    ({ loaded with config := tight, fstack := [0, 0] } : State).config.fstackCap = some ([0, 0] : Stack).length :=
  ⟨rfl, by decide, rfl, rfl, by decide, rfl⟩

theorem witness_FunPushesOnlyInWarmup : (inWarmup [0]).phase = .warmup ∧
    hasRoom (inWarmup [0]).config.fstackCap (inWarmup [0]).fstack 1 = true ∧ (inRecital [] [] []).phase = .recital := by
  decide

theorem witness_ExeInWarmupEntersRecital : (inWarmup [0]).phase = .warmup ∧ (inWarmup [0]).fstack = 0 :: [] ∧
    (inWarmup []).fstack = [] := by decide

theorem witness_WarmupIsALinearScan : ProgramFits loaded ∧ loaded.phase = .warmup ∧ ∃ t, step loaded = .next t :=
  ⟨by decide, rfl, _, rfl⟩

theorem witness_WarmupEnds : ProgramFits loaded ∧ loaded.phase = .warmup := by decide

theorem witness_WarmupRefinesTheScan : ProgramFits loaded ∧ loaded.phase = .warmup ∧ loaded.config.fstackCap = none ∧
    loaded.fstack = [] ∧ scan loaded.config loaded.imem 3 loaded.ip.toNat [] = some (.entered 0 []) :=
  ⟨by decide, rfl, rfl, rfl, rfl⟩

/-- A step in Recital, and the step that leaves Warmup. -/
theorem witness_PhaseChangesOnceByExe :
    (∃ t, step { loaded with phase := .recital } = .next t) ∧
    ∃ t, step { loaded with ip := 3, fstack := [0] } = .next t ∧ t.phase = .recital := ⟨⟨_, rfl⟩, _, rfl, rfl⟩

/-- No literal; the last literal at the end of the program; one past it; `P` full at the first literal, and at the last. -/
theorem witness_PushInRecitalPushesItsLiterals : (inTight [] [] []).phase = .recital ∧ ProgramFits (inTight [] [] []) ∧
    ({ inTight [] [] [] with ip := 8 } : State).ip.toNat + (2 : Imm).toNat ≤ (inTight [] [] []).plen ∧
    hasRoom tight.pstackCap [] (2 : Imm).toNat = true ∧
    (inTight [] [] []).plen < ({ inTight [] [] [] with ip := 9 } : State).ip.toNat + (2 : Imm).toNat ∧
    hasRoom tight.pstackCap [7] ((inTight [] [] []).plen - 9) = true ∧
    (tight.pstackCap = some (([7, 7] : Stack).length + 0) ∧ 0 < (1 : Imm).toNat ∧ 5 + 0 < (inTight [] [] []).plen) ∧
    (tight.pstackCap = some (([7] : Stack).length + 1) ∧ 1 < (2 : Imm).toNat ∧ 8 + 1 < (inTight [] [] []).plen) := by
  decide

theorem witness_PopDropsVarWords : (inRecital [1, 2] [] []).phase = .recital ∧
    (2 : Imm).toNat ≤ (inRecital [1, 2] [] []).pstack.length ∧
    (inRecital [1, 2] [] []).pstack.length < (3 : Imm).toNat := by decide

theorem witness_DupCopiesTheTop : (inTight [7] [] []).phase = .recital ∧
    hasRoom tight.pstackCap (inTight [7] [] []).pstack (1 : Imm).toNat = true ∧
    tight.pstackCap = some ((inTight [7] [] []).pstack.length + 1) ∧ 1 < (2 : Imm).toNat := by decide

/-- The hypotheses of AddSaturates, DifIsAbsoluteDifference, MulSaturates and AndOrXorAreBitwise: no pass; as many passes as
there are Words beneath the top; one more. -/
theorem witness_FoldsIntoTop : (inTight [1, 2] [] []).phase = .recital ∧
    withinCap tight.pstackCap (inTight [1, 2] [] []).pstack = true ∧ (0 : Imm) = 0 ∧
    ((inTight [1, 2] [] []).pstack = 1 :: [2] ∧ (1 : Imm).toNat ≤ ([2] : Stack).length) ∧
    ((2 : Imm) ≠ 0 ∧ (inTight [1, 2] [] []).pstack.length ≤ (2 : Imm).toNat) := by decide

/-- The hypotheses of DivFloorsOrSaturates, RemIsOrdinaryRemainder, ShlDropsHighBits and ShrFillsWithZeros: two Words, one Word
and none; shift amounts and divisors on each side of their bounds. -/
theorem witness_TakesOperandFromStackOrVar : (inTight [127, 2] [] []).phase = .recital ∧
    withinCap tight.pstackCap (inTight [127, 2] [] []).pstack = true ∧
    (inTight [127, 2] [] []).pstack = 127 :: 2 :: [] ∧ (inTight [128, 2] [] []).pstack = 128 :: 2 :: [] ∧
    (inTight [0, 2] [] []).pstack = 0 :: 2 :: [] ∧ (inTight [1] [] []).pstack.length < 2 ∧
    ((127 : Imm) ≠ 0 ∧ (128 : Imm) ≠ 0 ∧ (inTight [1] [] []).pstack = 1 :: []) ∧ (inTight [] [] []).pstack = [] := by
  decide

/-- The hypotheses of BeqCallsOnUnequalPair, BneCallsOnEqualPair and BgtAndBltCallOnTopAtMost on the state: as many pairs as
there are Words beneath the top, and one more. The calls meet witness_CallPushesReturnAndMarker. -/
theorem witness_CallsWhenAnyPair : (inTight [2, 2] [] []).phase = .recital ∧
    withinCap tight.pstackCap (inTight [2, 2] [] []).pstack = true ∧
    (inTight [2, 2] [] []).pstack = 2 :: [2] ∧ (1 : Imm).toNat ≤ ([2] : Stack).length ∧
    (inTight [2, 2] [] []).pstack.length ≤ (2 : Imm).toNat := by decide

/-- A pair that meets the condition of `Beq`, and none that does. -/
theorem witness_BeqCallsOnUnequalPair : (∃ b ∈ ([3] : Stack).take (1 : Imm).toNat, (2 : Word) ≠ b) ∧
    ∀ b ∈ ([2] : Stack).take (1 : Imm).toNat, ¬ (2 : Word) ≠ b := ⟨⟨3, by decide, by decide⟩, by simp⟩

/-- The same for `Bne`. -/
theorem witness_BneCallsOnEqualPair : (∃ b ∈ ([2] : Stack).take (1 : Imm).toNat, (2 : Word) = b) ∧
    ∀ b ∈ ([3] : Stack).take (1 : Imm).toNat, ¬ (2 : Word) = b := ⟨⟨2, by decide, by decide⟩, by simp⟩

/-- The same for `Bgt` and `Blt`. -/
theorem witness_BgtAndBltCallOnTopAtMost : (∃ b ∈ ([2] : Stack).take (1 : Imm).toNat, (2 : Word).toNat ≤ b.toNat) ∧
    ∀ b ∈ ([2] : Stack).take (1 : Imm).toNat, ¬ (3 : Word).toNat ≤ b.toNat := ⟨⟨2, by decide, by decide⟩, by simp⟩

/-- The hypotheses of CallPushesReturnAndMarker: an index past the table; a target past the program; room for two Words, one
and none. -/
theorem witness_CallPushesReturnAndMarker : (inTight [] [] [10, 9]).phase = .recital ∧
    (inTight [] [] [10, 9]).fstack.length ≤ (2 : Imm).toNat ∧
    ((inTight [] [] [10, 9]).fstack.reverse[(1 : Imm).toNat]? = some 10 ∧
      (inTight [] [] [10, 9]).plen ≤ (10 : Word).toNat) ∧
    ((inTight [] [] [10, 9]).fstack.reverse[(0 : Imm).toNat]? = some 9 ∧
      (9 : Word).toNat < (inTight [] [] [10, 9]).plen) ∧
    hasRoom tight.cstackCap [] 2 = true ∧ tight.cstackCap = some ([1, 6] : Stack).length ∧
    tight.cstackCap = some (([6] : Stack).length + 1) := by decide

theorem witness_RetPopsMarkerThenTarget : (inRecital [] [1, 6] []).phase = .recital ∧
    (inRecital [] [1, 6] []).cstack = 1 :: 6 :: [] ∧ (inRecital [] [5] []).cstack = [5] ∧
    (inRecital [] [] []).cstack = [] := by decide

theorem witness_LoopPushesAddressAndCounter : (inTight [] [] []).phase = .recital ∧
    hasRoom tight.cstackCap (inTight [] [] []).cstack 2 = true ∧
    (inTight [] [1, 6] []).config.cstackCap = some (inTight [] [1, 6] []).cstack.length ∧
    (inTight [] [6] []).config.cstackCap = some ((inTight [] [6] []).cstack.length + 1) := by decide

theorem witness_IterCountsDown : (inTight [] [2, 6] []).phase = .recital ∧
    withinCap tight.cstackCap (inTight [] [2, 6] []).cstack = true ∧
    ((inTight [] [2, 6] []).cstack = 2 :: 6 :: [] ∧ 2 ≤ (2 : Word).toNat) ∧
    ((inTight [] [1, 6] []).cstack = 1 :: 6 :: [] ∧ (1 : Word).toNat ≤ 1) ∧
    (inTight [] [7] []).cstack.length < 2 := by decide

theorem witness_ExeInRecitalEndsTheRun : ({ loaded with phase := .recital, ip := 3 } : State).phase = .recital ∧
    iFetch { loaded with phase := .recital, ip := 3 } 3 = some 0x00000000000000160000000000000000 ∧
    decode loaded.config 0x00000000000000160000000000000000 = .ok (.exe 0) := ⟨rfl, by decide, rfl⟩

/-- The last address, the first past it, and an empty `P`. -/
theorem witness_StoWritesOneWord : (inRecital [42] [] []).phase = .recital ∧ MemoryCanonical (inRecital [42] [] []) ∧
    (inRecital [42] [] []).pstack = 42 :: [] ∧ (effectiveAddress 1023).toNat < 1024 ∧
    1024 ≤ (effectiveAddress 1024).toNat ∧ (inRecital [] [] []).pstack = [] := by decide

theorem witness_LodPushesOneWord : (inTight [] [] []).phase = .recital ∧ (1023 : Imm).toNat < 1024 ∧
    hasRoom tight.pstackCap (inTight [7] [] []).pstack 1 = true ∧
    (inTight [7, 7] [] []).config.pstackCap = some (inTight [7, 7] [] []).pstack.length ∧ 1024 ≤ (1024 : Imm).toNat := by
  decide

/-- `sto 5`, `sto 1023`, `lod 5`, with `fun 0` and `exe 0` around them. -/
def storing : List Word :=
  [0x00000000000000110000000000000000, 0x00000000000000170000000000000005, 0x000000000000001700000000000003FF,
   0x00000000000000180000000000000005, 0x00000000000000160000000000000000]

/-- The machine in Recital at the first store of `storing`, with two Words on `P`. -/
def atStore : State := { State.reset with phase := .recital, ip := 1, pstack := [42, 43], imem := storing }

/-- A store to address 5, then a store to address 1023, then the load of address 5. -/
theorem witness_LoadReadsTheLatestStore : ∃ t u : State, atStore.phase = .recital ∧ MemoryCanonical atStore ∧
    atStore.pstack = 42 :: [43] ∧ NextIs atStore (.sto 5) ∧ step atStore = .next t ∧ stepsWithout (.sto 5) 1 t u ∧
    NextIs u (.lod 5) ∧ hasRoom u.config.pstackCap u.pstack 1 = true := by
  refine ⟨_, _, rfl, rfl, rfl, ⟨_, rfl, rfl⟩, rfl, ⟨_, ?_, rfl, rfl⟩, ⟨_, rfl, rfl⟩, rfl⟩
  rintro ⟨-, w, hw, hd⟩
  cases hw
  cases hd

/-- `fun 0`, `lod 1023` (the last address), `exe 0`: four steps after the launch the next step is the load. -/
theorem witness_LoadReadsTheLatestStore_unwritten : ∃ s u : State, (1023 : Imm).toNat < 1024 ∧
    launch [0x00000000000000110000000000000000, 0x000000000000001800000000000003FF, 0x00000000000000160000000000000000]
      State.reset = .next s ∧
    stepsWithout (.sto 1023) 4 s u ∧ u.phase = .recital ∧ NextIs u (.lod 1023) ∧
    hasRoom u.config.pstackCap u.pstack 1 = true := by
  refine ⟨_, _, by decide, rfl, ⟨_, ?_, rfl, _, ?_, rfl, _, ?_, rfl, _, ?_, rfl, rfl⟩, rfl, ⟨_, rfl, rfl⟩, rfl⟩ <;>
    rintro ⟨hp, w, hw, hd⟩
  · cases hp
  · cases hp
  · cases hp
  · cases hw
    cases hd

/-- `ebp` at the length, above it, and a full `P`. -/
theorem witness_LenPushesDepthLessEbp : (inTight [7] [] []).phase = .recital ∧
    hasRoom tight.pstackCap (inTight [7] [] []).pstack 1 = true ∧
    ({ inTight [7] [] [] with ebp := 1 } : State).ebp.toNat ≤ (inTight [7] [] []).pstack.length ∧
    (inTight [7] [] []).pstack.length < ({ inTight [7] [] [] with ebp := 2 } : State).ebp.toNat ∧
    (inTight [7, 7] [] []).config.pstackCap = some (inTight [7, 7] [] []).pstack.length := by decide

theorem witness_CompletedInstructionFrame : MemoryCanonical (inRecital [42] [] []) ∧
    ∃ t, exec (.sto 5) (inRecital [42] [] []) = .next t := ⟨rfl, _, rfl⟩

theorem witness_RaisedInstructionFrame : ∃ f, exec (.sto 1024) (inRecital [42] [] []) = .fault f := ⟨_, rfl⟩

/-- One state for each of the four causes. -/
theorem witness_CausesOfStackUnderflow :
    (∃ t, exec (.pop 1) (inRecital [] [] []) = .fault (.stackUnderflow t)) ∧
    (∃ t, exec (.ret 0) (inRecital [] [] []) = .fault (.stackUnderflow t)) ∧
    (∃ t, exec (.exe 0) (inWarmup []) = .fault (.stackUnderflow t)) ∧
    ∃ t, exec (.push 1) { inRecital [] [] [] with ip := 10 } = .fault (.stackUnderflow t) :=
  ⟨⟨_, rfl⟩, ⟨_, rfl⟩, ⟨_, rfl⟩, _, rfl⟩

/-- One state for each of the kinds, and for `StackOverflow` one for each stack. -/
theorem witness_CausesOfOtherResultKinds :
    (∃ f, exec (.exe 0) (inRecital [] [] []) = .fault f ∧ f.kind = .endReached) ∧
    (∃ f, exec (.lod 1024) (inRecital [] [] []) = .fault f ∧ f.kind = .writeOob) ∧
    (∃ f, exec (.call 0) (inRecital [] [] []) = .fault f ∧ f.kind = .badCall) ∧
    (∃ f, exec (.dup 2) (inTight [7] [] []) = .fault f ∧ f.kind = .stackOverflow ∧ StacksFit (inTight [7] [] [])) ∧
    (∃ f, exec (.loop 2) (inTight [] [7] []) = .fault f ∧ f.kind = .stackOverflow ∧ StacksFit (inTight [] [7] [])) ∧
    ∃ f, exec (.fun_ 0) { inTight [] [] [2, 0] with phase := .warmup } = .fault f ∧ f.kind = .stackOverflow ∧
      StacksFit { inTight [] [] [2, 0] with phase := .warmup } :=
  ⟨⟨_, rfl, rfl⟩, ⟨_, rfl, rfl⟩, ⟨_, rfl, rfl⟩, ⟨_, rfl, rfl, by decide⟩, ⟨_, rfl, rfl, by decide⟩, _, rfl, rfl, by decide⟩

theorem witness_StepKeepsMachineInvariant : MachineInv { loaded with config := tight } ∧
    ∃ t, step { loaded with config := tight } = .next t := ⟨by decide, _, rfl⟩

theorem witness_RaiseKeepsMachineInvariant : MachineInv { loaded with config := tight, ip := 3 } ∧
    ∃ f, step { loaded with config := tight, ip := 3 } = .fault f := ⟨by decide, _, rfl⟩

theorem witness_LaunchMeetsMachineInvariant : ({ loaded with config := tight } : State).config.wf = true ∧
    ∃ t, launch loaded.imem { loaded with config := tight } = .next t := ⟨by decide, _, rfl⟩

/-- In Warmup with one entry, and in Recital with two. -/
theorem witness_StepKeepsFunctionTableInTextOrder : ProgramFits loaded ∧
    (EntriesInTextOrder { loaded with ip := 1, fstack := [0] } ∧
      ∃ t, step { loaded with ip := 1, fstack := [0] } = .next t) ∧
    EntriesInTextOrder { loaded with phase := .recital, fstack := [2, 0] } ∧
      ∃ t, step { loaded with phase := .recital, fstack := [2, 0] } = .next t :=
  ⟨by decide, ⟨by decide, _, rfl⟩, by decide, _, rfl⟩

theorem witness_StepKeepsPointersBelowWrap : ProgramFits loaded ∧ loaded.cstack.length ≤ 2 ^ 64 ∧
    PointersBelowWrap loaded ∧ ∃ t, step loaded = .next t := ⟨by decide, Nat.zero_le _, by decide, _, rfl⟩

/-- A program of the greatest length, and one Word longer. -/
theorem witness_ReadInstallsTheProgramOnly :
    ([1, 2] : List Word).length ≤ ({ loaded with config := { tight with imemCap := 2 } } : State).config.imemCap ∧
    ({ loaded with config := { tight with imemCap := 2 } } : State).config.imemCap < ([1, 2, 3] : List Word).length := by
  decide

theorem witness_StepsCompose : (∃ t, hostSteps 2 loaded = .next t) ∧ ∃ f, hostSteps 2 State.reset = .fault f :=
  ⟨⟨_, rfl⟩, _, rfl⟩

theorem witness_RunAnswersTheFirstFailure : ∃ f, hostRun 7 loaded = some f ∧ f.kind = .endReached := ⟨_, rfl, rfl⟩

theorem witness_FailedFetchRepeats : hostStep State.reset = some (.noExec, State.reset) ∧
    hostStep { loaded with imem := [0x000000000000001A0000000000000000] } =
      some (.illegalOp, { loaded with imem := [0x000000000000001A0000000000000000] }) := by decide

theorem witness_AssemblerEmitsEncodedWords : classify ['p', 'u', 's', 'h'] = .mnemonic .push ∧
    (classify ['0', 'x', 'f', 'f'] = .number 255 ∧ 255 < 2 ^ 64) ∧
    (classify ['1', '8', '4', '4', '6', '7', '4', '4', '0', '7', '3', '7', '0', '9', '5', '5', '1', '6', '1', '6'] =
      .number (2 ^ 64) ∧ 2 ^ 64 < 2 ^ 128) ∧ classify ['?'] = .other ∧ classify ['f', 'u', 'n'] = .mnemonic .fun_ := by
  decide

end Sys2Proof.Tests
end

section
/-! SUPPORT. What an instruction that completes may have done, said once as a relation between the state it ran in and the
state it answered; the invariants and the frame of the machine follow by one case split on it. -/

namespace Sys2Proof.Machine

/-! ## Stacks within their capacities -/

theorem withinCap_iff {cap : Capacity} {S : Stack} : withinCap cap S = true ↔ ∀ k, cap = some k → S.length ≤ k := by
  cases cap <;> simp [withinCap, hasRoom]

/-- A stack `T` that came from `S` is within the capacity if `S` was. -/
def KeepsCap (cap : Capacity) (S T : Stack) : Prop := withinCap cap S = true → withinCap cap T = true

theorem KeepsCap.of_length_le {cap : Capacity} {S T : Stack} (h : T.length ≤ S.length) : KeepsCap cap S T := fun hS =>
  withinCap_iff.mpr fun k hk => h.trans (withinCap_iff.mp hS k hk)

theorem KeepsCap.trans {cap : Capacity} {S T U : Stack} (h : KeepsCap cap S T) (h' : KeepsCap cap T U) :
    KeepsCap cap S U := fun hS => h' (h hS)

/-- A push that found a free place (`10_state.md` R31). -/
theorem KeepsCap.push {cap : Capacity} {S : Stack} (v : Word) (h : cap ≠ some S.length) : KeepsCap cap S (v :: S) := fun hS =>
  withinCap_iff.mpr fun k hk => Nat.lt_of_le_of_ne (withinCap_iff.mp hS k hk) fun he => h (he ▸ hk)

/-- Two pushes that each found a free place. -/
theorem KeepsCap.push_push {cap : Capacity} {S : Stack} (v w : Word) (h : cap ≠ some S.length)
    (h' : cap ≠ some (S.length + 1)) : KeepsCap cap S (v :: w :: S) :=
  (KeepsCap.push w h).trans (KeepsCap.push v h')

/-! ## Operations that write the program stack alone -/

/-- `t` is `s` with another program stack, which keeps within its capacity. -/
def ChangesPstackOnly (s t : State) : Prop :=
  ∃ P, t = s.setPstack P ∧ KeepsCap s.config.pstackCap s.pstack P

namespace ChangesPstackOnly

theorem refl (s : State) : ChangesPstackOnly s s := ⟨s.pstack, rfl, .of_length_le le_rfl⟩

theorem trans {s t u : State} (h : ChangesPstackOnly s t) (h' : ChangesPstackOnly t u) : ChangesPstackOnly s u := by
  obtain ⟨P, rfl, hP⟩ := h
  obtain ⟨Q, rfl, hQ⟩ := h'
  exact ⟨Q, rfl, hP.trans hQ⟩

theorem of_pushP {s t : State} {v : Word} (h : pushP s v = .ok t) : ChangesPstackOnly s t := by
  obtain ⟨hroom, rfl⟩ := pushP_eq_ok.mp h
  exact ⟨_, rfl, .push v hroom⟩

theorem of_popP {s t : State} {v : Word} (h : popP s = .ok (v, t)) : ChangesPstackOnly s t := by
  obtain ⟨P, hP, rfl⟩ := popP_eq_ok.mp h
  exact ⟨P, rfl, .of_length_le (by simp [hP])⟩

theorem of_repeatTimes {body : State → Res State} (hb : ∀ s t, body s = .ok t → ChangesPstackOnly s t) {n : Nat}
    {s t : State} (h : repeatTimes body n s = .ok t) : ChangesPstackOnly s t :=
  repeatTimes_keeps (p := ChangesPstackOnly s) (fun u v hu hv => hu.trans (hb u v hv)) (.refl s) h

theorem of_discardTop {s t : State} (h : discardTop s = .ok t) : ChangesPstackOnly s t := by
  obtain ⟨⟨v, u⟩, hu, ht⟩ := bind_eq_ok.mp h
  cases ht
  exact of_popP hu

theorem of_binaryPass {f : Word → Word → Word} {s t : State} (h : binaryPass f s = .ok t) : ChangesPstackOnly s t := by
  obtain ⟨⟨a, u⟩, hu, h⟩ := bind_eq_ok.mp h
  obtain ⟨⟨b, v⟩, hv, h⟩ := bind_eq_ok.mp h
  exact (of_popP hu).trans ((of_popP hv).trans (of_pushP h))

theorem of_zeroOrOperand {f : Word → Word → Word} {v : Imm} {s t : State} (h : zeroOrOperand f v s = .ok t) :
    ChangesPstackOnly s t := by
  unfold zeroOrOperand at h
  split at h
  · exact of_binaryPass (f := fun a b => f b a) h
  · obtain ⟨⟨x, u⟩, hu, h⟩ := bind_eq_ok.mp h
    exact (of_popP hu).trans (of_pushP h)

theorem of_loadWord {v : Imm} {s t : State} (h : loadWord v s = .ok t) : ChangesPstackOnly s t := by
  obtain ⟨w, -, h⟩ := bind_eq_ok.mp h
  exact of_pushP h

theorem of_comparePasses {cond : Word → Word → Bool} {n : Nat} {flag flag' : Bool} {s t : State}
    (h : comparePasses cond n flag s = .ok (flag', t)) : ChangesPstackOnly s t := by
  induction n generalizing flag s with
  | zero => cases h; exact refl _
  | succ n ih =>
    obtain ⟨⟨g, u⟩, hu, h⟩ := bind_eq_ok.mp h
    obtain ⟨a, b, P, hP, -, -, rfl⟩ := comparePass_eq_ok.mp hu
    exact trans ⟨a :: P, rfl, .of_length_le (by simp [hP])⟩ (ih h)

end ChangesPstackOnly

/-! ## Operations that write the instruction pointer or the call stack -/

/-- `t` is `s` with another program stack, which keeps within its capacity, and with an `ip` that stays at most `PLEN`. -/
def ReadsLiterals (s t : State) : Prop :=
  ∃ P ip, t = (s.setPstack P).setIp ip ∧ KeepsCap s.config.pstackCap s.pstack P ∧
    (s.ip.toNat ≤ s.plen → ip.toNat ≤ s.plen)

/-- `Push` in Recital advances `ip` only past Words it has read (`41_stack_ops.md` R120). -/
theorem readsLiterals_of_repeatTimes {n : Nat} {s t : State} (h : repeatTimes pushLiteral n s = .ok t) :
    ReadsLiterals s t := by
  refine repeatTimes_keeps (p := ReadsLiterals s) ?_ ⟨s.pstack, s.ip, rfl, .of_length_le le_rfl, id⟩ h
  rintro _ u ⟨P, ip, rfl, hP, -⟩ hu
  unfold pushLiteral at hu
  split at hu
  · cases hu
  · next w hw =>
    obtain ⟨v, hv, hu⟩ := bind_eq_ok.mp hu
    obtain ⟨hroom, rfl⟩ := pushP_eq_ok.mp hv
    cases hu
    refine ⟨w :: P, ip + 1, rfl, hP.trans (.push w hroom), fun _ => ?_⟩
    have hlt : ip.toNat < s.plen := iFetch_lt hw
    rw [BitVec.toNat_add]
    exact (Nat.mod_le _ _).trans hlt

/-- Everything `Loop` does when it completes (`44_control.md` R164). -/
theorem enterLoop_ok {v : Imm} {s t : State} (h : enterLoop v s = .ok t) :
    t = s.setCstack (zext v :: s.ip :: s.cstack) ∧
      KeepsCap s.config.cstackCap s.cstack (zext v :: s.ip :: s.cstack) := by
  obtain ⟨u, hu, h⟩ := bind_eq_ok.mp h
  obtain ⟨h1, rfl⟩ := pushC_eq_ok.mp hu
  obtain ⟨h2, rfl⟩ := pushC_eq_ok.mp h
  exact ⟨rfl, .push_push _ _ h1 h2⟩

/-- Everything `Ret` does when it completes (`44_control.md` R163). -/
theorem returnFromCall_ok {s t : State} (h : returnFromCall s = .ok t) :
    ∃ marker target C, s.cstack = marker :: target :: C ∧ t = ((s.setCstack C).setEbp marker).setIp target := by
  obtain ⟨⟨marker, u⟩, hu, h⟩ := bind_eq_ok.mp h
  obtain ⟨_, hC, rfl⟩ := popC_eq_ok.mp hu
  obtain ⟨⟨target, v⟩, hv, h⟩ := bind_eq_ok.mp h
  obtain ⟨C, rfl, rfl⟩ := popC_eq_ok.mp hv
  cases h
  exact ⟨marker, target, C, hC, rfl⟩

/-- Everything `Iter` does when it completes: the loop ends, or its decremented counter goes back and `ip` moves only under
`ITER_REDIRECT` (`44_control.md` R165, D4). -/
theorem iterate_ok {s t : State} (h : iterate s = .ok t) :
    ∃ c a C, s.cstack = c :: a :: C ∧
      (t = s.setCstack C ∨
        t = (s.setCstack (satDec c :: a :: C)).setIp (if s.config.iterRedirect then a else s.ip)) := by
  obtain ⟨⟨c, u⟩, hu, h⟩ := bind_eq_ok.mp h
  obtain ⟨_, hC, rfl⟩ := popC_eq_ok.mp hu
  obtain ⟨⟨a, v⟩, hv, h⟩ := bind_eq_ok.mp h
  obtain ⟨C, rfl, rfl⟩ := popC_eq_ok.mp hv
  refine ⟨c, a, C, hC, ?_⟩
  dsimp only at h
  split at h
  · obtain ⟨_, hu, h⟩ := bind_eq_ok.mp h
    obtain ⟨-, rfl⟩ := pushC_eq_ok.mp hu
    obtain ⟨_, hv, h⟩ := bind_eq_ok.mp h
    obtain ⟨-, rfl⟩ := pushC_eq_ok.mp hv
    cases h
    cases hr : s.config.iterRedirect with
    | false => exact .inr (if_neg (by simp [hr]))
    | true => exact .inr (if_pos hr)
  · cases h
    exact .inl rfl

/-- Everything `Sto` does when it completes (`45_memory_ops.md` R180). -/
theorem storeTop_ok {v : Imm} {s t : State} (h : storeTop v s = .ok t) :
    ∃ w P, s.pstack = w :: P ∧ (effectiveAddress v).toNat < memWords ∧
      t = (s.setPstack P).setMem (s.mem.write (effectiveAddress v).toNat w) := by
  obtain ⟨⟨w, u⟩, hu, h⟩ := bind_eq_ok.mp h
  obtain ⟨P, hP, rfl⟩ := popP_eq_ok.mp hu
  obtain ⟨ha, rfl⟩ := memWrite_eq_ok.mp h
  exact ⟨w, P, hP, ha, rfl⟩

/-- Everything `Exe` in Warmup does when it completes (`40_dispatch_warmup.md` R107). -/
theorem enterRecital_ok {s t : State} (h : enterRecital s = .ok t) :
    ∃ target ∈ s.fstack, t = (s.setPhase .recital).setIp target := by
  obtain ⟨target, hF, h⟩ := bind_eq_ok.mp h
  obtain ⟨F, hF⟩ := lastF_eq_ok.mp hF
  cases h
  have hF : s.fstack = target :: F := hF
  exact ⟨target, by simp [hF], rfl⟩

/-! ## The completed instruction as a relation -/

/-- The state a call continues in: the return offset `r` and the marker on the call stack, `ip` at the target
(`44_control.md` R161). -/
def State.enterFunction (s : State) (r target : Word) : State :=
  (s.setCstack (callMarker s.config s.cstack.length :: r :: s.cstack)).setIp target

/-- `Completes s i t`: what instruction `i`, run in `s`, may have done when it answers the next state `t`. The program stack of
the instructions that write nothing else is left open but for its capacity. -/
inductive Completes (s : State) : Instr → State → Prop
  /-- Nothing: the opcodes ignored in Warmup (R108), and `Fun` in Recital (R160). -/
  | unchanged {i : Instr} : Completes s i s
  /-- `Push` in Warmup (R106). -/
  | skipLiterals {v : Imm} (hp : s.phase = .warmup) : Completes s (.push v) (s.setIp (s.ip + zext v))
  /-- `Fun` in Warmup (R105). -/
  | recordFun {v : Imm} (hp : s.phase = .warmup) (hF : KeepsCap s.config.fstackCap s.fstack (s.a0 :: s.fstack)) :
      Completes s (.fun_ v) (s.setFstack (s.a0 :: s.fstack))
  /-- `Exe` in Warmup (R107). -/
  | enterRecital {v : Imm} {target : Word} (hp : s.phase = .warmup) (htarget : target ∈ s.fstack) :
      Completes s (.exe v) ((s.setPhase .recital).setIp target)
  /-- An instruction in Recital that writes the program stack alone; a branch not taken is one. -/
  | changePstack {i : Instr} {P : Stack} (hp : s.phase = .recital)
      (hi : i.opcode ∉ [Opcode.fun_, .call, .ret, .loop, .iter, .exe])
      (hP : KeepsCap s.config.pstackCap s.pstack P) : Completes s i (s.setPstack P)
  /-- `Push` in Recital (R120). -/
  | pushLiterals {v : Imm} {P : Stack} {ip : Word} (hp : s.phase = .recital)
      (hP : KeepsCap s.config.pstackCap s.pstack P) (hip : s.ip.toNat ≤ s.plen → ip.toNat ≤ s.plen) :
      Completes s (.push v) ((s.setPstack P).setIp ip)
  /-- `Sto` in Recital (R180). -/
  | store {v : Imm} {w : Word} {P : Stack} (hp : s.phase = .recital) (hP : KeepsCap s.config.pstackCap s.pstack P)
      (ha : (effectiveAddress v).toNat < memWords) :
      Completes s (.sto v) ((s.setPstack P).setMem (s.mem.write (effectiveAddress v).toNat w))
  /-- `Call` in Recital (R162). -/
  | call {v : Imm} {target : Word} (hp : s.phase = .recital) (htarget : target ∈ s.fstack) (hlt : target.toNat < s.plen)
      (hC : KeepsCap s.config.cstackCap s.cstack (s.enterFunction s.ip target).cstack) :
      Completes s (.call v) (s.enterFunction s.ip target)
  /-- A taken branch in Recital, which returns past the Word after the branch word (R150). -/
  | takeBranch {i : Instr} {P : Stack} {target : Word} (hp : s.phase = .recital)
      (hi : i.opcode ∈ [Opcode.beq, .bne, .bgt, .blt]) (hP : KeepsCap s.config.pstackCap s.pstack P)
      (htarget : target ∈ s.fstack) (hlt : target.toNat < s.plen)
      (hC : KeepsCap s.config.cstackCap s.cstack (s.enterFunction (s.ip + 1) target).cstack) :
      Completes s i ((s.enterFunction (s.ip + 1) target).setPstack P)
  /-- `Ret` in Recital (R163). -/
  | ret {v : Imm} {marker target : Word} {C : Stack} (hp : s.phase = .recital) (hC : s.cstack = marker :: target :: C) :
      Completes s (.ret v) (((s.setCstack C).setEbp marker).setIp target)
  /-- `Loop` in Recital (R164). -/
  | loop {v : Imm} (hp : s.phase = .recital)
      (hC : KeepsCap s.config.cstackCap s.cstack (zext v :: s.ip :: s.cstack)) :
      Completes s (.loop v) (s.setCstack (zext v :: s.ip :: s.cstack))
  /-- `Iter` in Recital on its last pass (R165). -/
  | iterEnd {v : Imm} {c a : Word} {C : Stack} (hp : s.phase = .recital) (hC : s.cstack = c :: a :: C) :
      Completes s (.iter v) (s.setCstack C)
  /-- `Iter` in Recital before its last pass (R165). -/
  | iterAgain {v : Imm} {c a : Word} {C : Stack} (hp : s.phase = .recital) (hC : s.cstack = c :: a :: C) :
      Completes s (.iter v) ((s.setCstack (satDec c :: a :: C)).setIp (if s.config.iterRedirect then a else s.ip))

/-- A branch is none of the opcodes that leave the program stack alone. -/
theorem not_mem_of_isBranch : ∀ {op : Opcode}, op ∈ [Opcode.beq, .bne, .bgt, .blt] →
    op ∉ [Opcode.fun_, .call, .ret, .loop, .iter, .exe] := by
  decide

/-- A branch that completes either only drops Words of the program stack, or is taken (`43_branch.md` R150). -/
theorem completes_of_branch {i : Instr} {cond : Word → Word → Bool} {v : Imm} {s t : State} (hp : s.phase = .recital)
    (hi : i.opcode ∈ [Opcode.beq, .bne, .bgt, .blt]) (h : branch cond v s = .ok t) : Completes s i t := by
  obtain ⟨⟨flag, u⟩, hu, h⟩ := bind_eq_ok.mp h
  obtain ⟨⟨w, u'⟩, hu', h⟩ := bind_eq_ok.mp h
  obtain ⟨P, rfl, hP⟩ := (ChangesPstackOnly.of_comparePasses hu).trans (.of_popP hu')
  dsimp only at h
  split at h
  · obtain ⟨target, htarget, hlt, h1, h2, rfl⟩ := doCall_eq_ok.mp h
    exact .takeBranch hp hi hP (stackIndex_mem htarget) hlt (.push_push _ _ h1 h2)
  · cases h
    exact .changePstack hp (not_mem_of_isBranch hi) hP

theorem ChangesPstackOnly.completes {i : Instr} {s t : State} (h : ChangesPstackOnly s t) (hp : s.phase = .recital)
    (hi : i.opcode ∉ [Opcode.fun_, .call, .ret, .loop, .iter, .exe]) : Completes s i t := by
  obtain ⟨P, rfl, hP⟩ := h
  exact .changePstack hp hi hP

theorem completes_of_exec_warmup {i : Instr} {s t : State} (hp : s.phase = .warmup) (h : exec i s = .next t) :
    Completes s i t := by
  cases i with
  | push v =>
    cases (exec_push_warmup v hp).symm.trans h
    exact .skipLiterals hp
  | fun_ v =>
    obtain ⟨hroom, rfl⟩ := pushF_eq_ok.mp (finish_eq_next.mp ((exec_fun_warmup v hp).symm.trans h))
    exact .recordFun hp (.push _ hroom)
  | exe v =>
    obtain ⟨target, htarget, rfl⟩ := enterRecital_ok (finish_eq_next.mp ((exec_exe_warmup v hp).symm.trans h))
    exact .enterRecital hp htarget
  | _ =>
    simp only [exec_pop_warmup _ hp, exec_dup_warmup _ hp, exec_add_warmup _ hp, exec_dif_warmup _ hp,
      exec_mul_warmup _ hp, exec_div_warmup _ hp, exec_rem_warmup _ hp, exec_and_warmup _ hp, exec_or_warmup _ hp,
      exec_xor_warmup _ hp, exec_shl_warmup _ hp, exec_shr_warmup _ hp, exec_beq_warmup _ hp, exec_bne_warmup _ hp,
      exec_bgt_warmup _ hp, exec_blt_warmup _ hp, exec_call_warmup _ hp, exec_ret_warmup _ hp, exec_loop_warmup _ hp,
      exec_iter_warmup _ hp, exec_sto_warmup _ hp, exec_lod_warmup _ hp, exec_len_warmup _ hp] at h
    cases h
    exact .unchanged

theorem completes_of_exec_recital {i : Instr} {s t : State} (hp : s.phase = .recital) (h : exec i s = .next t) :
    Completes s i t := by
  cases i with
  | push v =>
    rw [exec_push_recital v hp, finish_eq_next] at h
    obtain ⟨P, ip, rfl, hP, hip⟩ := readsLiterals_of_repeatTimes h
    exact .pushLiterals hp hP hip
  | pop v =>
    rw [exec_pop_recital v hp, finish_eq_next] at h
    exact (ChangesPstackOnly.of_repeatTimes (fun _ _ => .of_discardTop) h).completes hp (by simp [Instr.opcode])
  | dup v =>
    rw [exec_dup_recital v hp, finish_eq_next] at h
    exact (ChangesPstackOnly.of_repeatTimes (fun _ _ => .of_pushP) h).completes hp (by simp [Instr.opcode])
  | add v | dif v | mul v | and v | or v | xor v =>
    simp only [exec_add_recital v hp, exec_dif_recital v hp, exec_mul_recital v hp, exec_and_recital v hp,
      exec_or_recital v hp, exec_xor_recital v hp, finish_eq_next] at h
    exact (ChangesPstackOnly.of_repeatTimes (fun _ _ => .of_binaryPass) h).completes hp (by simp [Instr.opcode])
  | div v | rem v | shl v | shr v =>
    simp only [exec_div_recital v hp, exec_rem_recital v hp, exec_shl_recital v hp, exec_shr_recital v hp,
      finish_eq_next] at h
    exact (ChangesPstackOnly.of_zeroOrOperand h).completes hp (by simp [Instr.opcode])
  | beq v | bne v | bgt v | blt v =>
    simp only [exec_beq_recital v hp, exec_bne_recital v hp, exec_bgt_recital v hp, exec_blt_recital v hp,
      finish_eq_next] at h
    exact completes_of_branch hp (by simp [Instr.opcode]) h
  | fun_ v =>
    cases (exec_fun_recital v hp).symm.trans h
    exact .unchanged
  | call v =>
    rw [exec_call_recital v hp, finish_eq_next] at h
    obtain ⟨target, htarget, hlt, h1, h2, rfl⟩ := doCall_eq_ok.mp h
    exact .call hp (stackIndex_mem htarget) hlt (.push_push _ _ h1 h2)
  | ret v =>
    rw [exec_ret_recital v hp, finish_eq_next] at h
    obtain ⟨marker, target, C, hC, rfl⟩ := returnFromCall_ok h
    exact .ret hp hC
  | loop v =>
    rw [exec_loop_recital v hp, finish_eq_next] at h
    obtain ⟨rfl, hC⟩ := enterLoop_ok h
    exact .loop hp hC
  | iter v =>
    rw [exec_iter_recital v hp, finish_eq_next] at h
    obtain ⟨c, a, C, hC, rfl | rfl⟩ := iterate_ok h
    · exact .iterEnd hp hC
    · exact .iterAgain hp hC
  | exe v => cases (exec_exe_recital v hp).symm.trans h
  | sto v =>
    rw [exec_sto_recital v hp, finish_eq_next] at h
    obtain ⟨w, P, hP, ha, rfl⟩ := storeTop_ok h
    exact .store hp (.of_length_le (by simp [hP])) ha
  | lod v =>
    rw [exec_lod_recital v hp, finish_eq_next] at h
    exact (ChangesPstackOnly.of_loadWord h).completes hp (by simp [Instr.opcode])
  | len v =>
    rw [exec_len_recital v hp, finish_eq_next] at h
    exact (ChangesPstackOnly.of_pushP h).completes hp (by simp [Instr.opcode])

/-- Every instruction that completes did one of the things `Completes` lists. -/
theorem completes_of_exec {i : Instr} {s t : State} (h : exec i s = .next t) : Completes s i t := by
  cases hp : s.phase with
  | warmup => exact completes_of_exec_warmup hp h
  | recital => exact completes_of_exec_recital hp h

/-! ## What a completed instruction keeps -/

namespace Completes

variable {i : Instr} {s t : State}

theorem config_eq (h : Completes s i t) : t.config = s.config := by cases h <;> rfl

theorem imem_eq (h : Completes s i t) : t.imem = s.imem := by cases h <;> rfl

/-- The function table grows by the offset of a `Fun` word in Warmup, and changes in no other way (R105, R27). -/
theorem fstack_eq (h : Completes s i t) :
    t.fstack = s.fstack ∨ (i.opcode = .fun_ ∧ s.phase = .warmup ∧ t.fstack = s.a0 :: s.fstack) := by
  cases h with
  | recordFun hp => exact .inr ⟨rfl, hp, rfl⟩
  | _ => exact .inl rfl

theorem mem_wf (h : Completes s i t) (hm : MemoryCanonical s) : MemoryCanonical t := by
  cases h with
  | store _ _ ha => exact Memory.wf_write hm ha _
  | _ => exact hm

theorem pstack_keepsCap (h : Completes s i t) : KeepsCap s.config.pstackCap s.pstack t.pstack := by
  cases h with
  | changePstack _ _ hP | pushLiterals _ hP | store _ hP | takeBranch _ _ hP => exact hP
  | _ => exact .of_length_le le_rfl

theorem cstack_keepsCap (h : Completes s i t) : KeepsCap s.config.cstackCap s.cstack t.cstack := by
  cases h with
  | call _ _ _ hC | takeBranch _ _ _ _ _ hC | loop _ hC => exact hC
  | ret _ hC | iterEnd _ hC => exact .of_length_le (by simp [hC, Nat.add_assoc])
  | iterAgain _ hC => exact .of_length_le (by simp [hC])
  | _ => exact .of_length_le le_rfl

theorem fstack_keepsCap (h : Completes s i t) : KeepsCap s.config.fstackCap s.fstack t.fstack := by
  cases h with
  | recordFun _ hF => exact hF
  | _ => exact .of_length_le le_rfl

theorem stacksFit (h : Completes s i t) (hs : StacksFit s) : StacksFit t := by
  obtain ⟨hP, hC, hF⟩ := hs
  unfold StacksFit
  rw [h.config_eq]
  exact ⟨h.pstack_keepsCap hP, h.cstack_keepsCap hC, h.fstack_keepsCap hF⟩

theorem plen_eq (h : Completes s i t) : t.plen = s.plen := congrArg List.length h.imem_eq

theorem programFits (h : Completes s i t) (hs : ProgramFits s) : ProgramFits t := by
  unfold ProgramFits
  rwa [h.plen_eq, h.config_eq]

end Completes

/-! ## The invariant of the machine -/

/-- Whether an offset is one of a `Fun` word depends on the program and the parameters alone. -/
theorem isFunWord_congr {s t : State} (hi : t.imem = s.imem) (hc : t.config = s.config) : isFunWord t = isFunWord s := by
  funext a
  simp only [isFunWord, iFetch, hi, hc]

theorem isFunWord_of_fetchInstr {s : State} {i : Instr} (h : fetchInstr s = .ok i) (hi : i.opcode = .fun_) :
    isFunWord s s.ip = true := by
  obtain ⟨w, hw, hd⟩ := fetchInstr_eq_ok.mp h
  simp [isFunWord, hw, hd, hi]

/-- A `Fun` in Warmup adds its own offset, which is that of a `Fun` word, and every other entry stays. -/
theorem Completes.entriesAreFuns {i : Instr} {s t : State} (h : Completes s i t)
    (ha0 : i.opcode = .fun_ → isFunWord s s.a0 = true) (hs : EntriesAreFuns s) : EntriesAreFuns t := by
  unfold EntriesAreFuns
  rw [isFunWord_congr h.imem_eq h.config_eq]
  rcases h.fstack_eq with hF | ⟨hi, -, hF⟩
  · rwa [hF]
  · rw [hF, List.all_cons, ha0 hi, Bool.true_and]
    exact hs

/-- A step that completes ran the instruction decoded at `ip`, with `ip` advanced (R100). -/
theorem completes_of_step {s t : State} (h : step s = .next t) :
    ∃ i, fetchInstr s = .ok i ∧ Completes s.advance i t := by
  obtain ⟨i, hi, ht⟩ := step_eq_next h
  exact ⟨i, hi, completes_of_exec ht⟩

/-- A Word that decodes lies inside the program (R100, R52). -/
theorem ip_lt_plen_of_fetchInstr {s : State} {i : Instr} (h : fetchInstr s = .ok i) : s.ip.toNat < s.plen := by
  obtain ⟨w, hw, -⟩ := fetchInstr_eq_ok.mp h
  exact iFetch_lt hw

/-- Settles O45, by cases on what the decoded instruction may have done. -/
theorem stepKeepsMachineInvariant : Obligations.StepKeepsMachineInvariant := by
  rintro s t ⟨hstacks, hprog, hmem, hfuns⟩ hstep
  obtain ⟨i, hfetch, h⟩ := completes_of_step hstep
  refine ⟨h.stacksFit hstacks, h.programFits hprog, h.mem_wf hmem, h.entriesAreFuns (fun hi => ?_) hfuns⟩
  rw [State.a0_advance]
  exact isFunWord_of_fetchInstr hfetch hi

/-! ## The text order of the function table -/

/-- The advance of the step cycle is exact inside a program that fits (R22, D20). -/
theorem toNat_advance_ip {s : State} {i : Instr} (hs : ProgramFits s) (h : fetchInstr s = .ok i) :
    s.advance.ip.toNat = s.ip.toNat + 1 := by
  obtain ⟨hcap, hmax⟩ := hs
  have hlt := ip_lt_plen_of_fetchInstr h
  rw [State.advance_eq, State.setIp_ip]
  bv_omega

theorem toNat_zext_lt (v : Imm) : (zext v).toNat < 2 ^ 64 := by
  rw [zext, BitVec.toNat_setWidth_of_le (by decide)]
  exact v.isLt

/-- No skip of literals wraps from inside a program that fits (R22, R106). -/
theorem toNat_add_zext {a : Word} (v : Imm) (ha : a.toNat ≤ 2 ^ 64) : (a + zext v).toNat = a.toNat + (zext v).toNat := by
  have hv := toNat_zext_lt v
  bv_omega

/-- Warmup moves `ip` forward, and Recital is never left. -/
theorem Completes.warmup_ip {i : Instr} {s t : State} (h : Completes s i t) (hip : s.ip.toNat ≤ 2 ^ 64)
    (ht : t.phase = .warmup) : s.phase = .warmup ∧ s.ip.toNat ≤ t.ip.toNat := by
  cases h with
  | unchanged => exact ⟨ht, le_rfl⟩
  | @skipLiterals v hp =>
    rw [State.setIp_ip, toNat_add_zext v hip]
    exact ⟨hp, Nat.le_add_right _ _⟩
  | recordFun hp => exact ⟨hp, le_rfl⟩
  | enterRecital => cases ht
  | changePstack hp | pushLiterals hp | store hp | call hp | takeBranch hp | ret hp | loop hp | iterEnd hp
  | iterAgain hp =>
    cases hp.symm.trans ht

/-- In Warmup the offset a `Fun` records is above every entry and below the `ip` the step leaves. -/
theorem Completes.entriesInTextOrder {i : Instr} {s t : State} (h : Completes s i t) (ha0 : s.a0.toNat < s.ip.toNat)
    (hip : s.ip.toNat ≤ 2 ^ 64) (hsorted : s.fstack.Pairwise fun newer older => older.toNat < newer.toNat)
    (hbefore : s.phase = .warmup → ∀ e ∈ s.fstack, e.toNat < s.a0.toNat) : EntriesInTextOrder t := by
  simp only [EntriesInTextOrder, List.all_eq_true, decide_eq_true_eq]
  rcases h.fstack_eq with hF | ⟨-, hp, hF⟩
  · rw [hF]
    refine ⟨hsorted, fun ht e he => ?_⟩
    obtain ⟨hp, hle⟩ := h.warmup_ip hip ht
    have := hbefore hp e he
    omega
  · rw [hF]
    refine ⟨List.pairwise_cons.mpr ⟨hbefore hp, hsorted⟩, fun ht e he => ?_⟩
    obtain ⟨-, hle⟩ := h.warmup_ip hip ht
    rcases List.mem_cons.mp he with rfl | he
    · omega
    · have := hbefore hp e he
      omega

/-- Settles O48: the offset a step records is its own `ip`, above the entries before it and below the advanced `ip`. -/
theorem stepKeepsFunctionTableInTextOrder : Obligations.StepKeepsFunctionTableInTextOrder := by
  rintro s t hprog ⟨hsorted, hbefore⟩ hstep
  obtain ⟨i, hfetch, h⟩ := completes_of_step hstep
  have hadv := toNat_advance_ip hprog hfetch
  have hlt := ip_lt_plen_of_fetchInstr hfetch
  have ha0 := congrArg BitVec.toNat s.a0_advance
  refine h.entriesInTextOrder (by omega) (by omega) hsorted fun hp e he => ?_
  have := List.all_eq_true.mp (hbefore hp) e he
  rw [ha0]
  exact of_decide_eq_true this

/-! ## The bound on pointers -/

/-- The bound of R22 on `ip` and on every Word of the call stack. -/
def pointerBound (s : State) : Nat := s.plen + 2 ^ 64 + 2

theorem plen_lt_pointerBound (s : State) : s.plen < pointerBound s := by
  unfold pointerBound
  omega

theorem pointersBelowWrap_iff {s : State} : PointersBelowWrap s ↔
    s.ip.toNat < pointerBound s ∧ (∀ w ∈ s.cstack, w.toNat < pointerBound s) ∧ ∀ e ∈ s.fstack, e.toNat < s.plen := by
  simp only [PointersBelowWrap, pointerBound, List.all_eq_true, decide_eq_true_eq]

/-- The marker of a call is a length of the call stack, before or after the return offset (D5). -/
theorem toNat_callMarker_le (c : Config) (n : Nat) : (callMarker c n).toNat ≤ n + 1 := by
  unfold callMarker wordOfNat
  split
  · exact (BitVec.toNat_ofNat _ _).trans_le (Nat.mod_le _ _)
  · exact ((BitVec.toNat_ofNat _ _).trans_le (Nat.mod_le _ _)).trans (Nat.le_succ n)

theorem toNat_satDec_le (c : Word) : (satDec c).toNat ≤ c.toNat := by
  unfold satDec
  split
  · exact Nat.zero_le _
  · bv_omega

theorem toNat_add_one_le (a : Word) : (a + 1).toNat ≤ a.toNat + 1 := by
  rw [BitVec.toNat_add]
  exact Nat.mod_le _ _

/-- After a call, `ip` is at an offset of the program, and the two new Words of the call stack are a return offset and a
length. -/
theorem pointers_enterFunction {s : State} {r target : Word} (hlen : s.cstack.length ≤ 2 ^ 64) (hr : r.toNat ≤ s.plen + 1)
    (hC : ∀ w ∈ s.cstack, w.toNat < pointerBound s) (hlt : target.toNat < s.plen) :
    (s.enterFunction r target).ip.toNat < pointerBound s ∧
      ∀ w ∈ (s.enterFunction r target).cstack, w.toNat < pointerBound s := by
  have hm := toNat_callMarker_le s.config s.cstack.length
  simp only [State.enterFunction, State.setIp_ip, State.setIp_cstack, State.setCstack_cstack, List.forall_mem_cons]
  unfold pointerBound at hC ⊢
  exact ⟨by omega, by omega, by omega, hC⟩

/-- From an advanced `ip` of at most `PLEN`, everything a completed instruction loads into `ip` or pushes on the call stack is
below the bound (R22). -/
theorem Completes.ip_cstack_below {i : Instr} {s t : State} (h : Completes s i t) (hlen : s.cstack.length ≤ 2 ^ 64)
    (hip : s.ip.toNat ≤ s.plen) (hC : ∀ w ∈ s.cstack, w.toNat < pointerBound s) (hF : ∀ e ∈ s.fstack, e.toNat < s.plen)
    (hfits : s.plen ≤ 2 ^ 64) :
    t.ip.toNat < pointerBound s ∧ ∀ w ∈ t.cstack, w.toNat < pointerBound s := by
  have hip' := hip.trans_lt (plen_lt_pointerBound s)
  cases h with
  | @skipLiterals v hp =>
    have hv := toNat_zext_lt v
    rw [State.setIp_ip, toNat_add_zext v (by omega)]
    exact ⟨by unfold pointerBound; omega, hC⟩
  | enterRecital _ htarget => exact ⟨(hF _ htarget).trans (plen_lt_pointerBound s), hC⟩
  | pushLiterals _ _ hle => exact ⟨(hle hip).trans_lt (plen_lt_pointerBound s), hC⟩
  | call _ _ hlt => exact pointers_enterFunction hlen (by omega) hC hlt
  | takeBranch _ _ _ _ hlt =>
    have := toNat_add_one_le s.ip
    exact pointers_enterFunction hlen (by omega) hC hlt
  | @loop v _ _ =>
    have hv := toNat_zext_lt v
    refine ⟨hip', List.forall_mem_cons.mpr ⟨?_, List.forall_mem_cons.mpr ⟨hip', hC⟩⟩⟩
    unfold pointerBound
    omega
  | ret _ heq =>
    simp only [heq, List.forall_mem_cons] at hC
    obtain ⟨-, htarget, hrest⟩ := hC
    exact ⟨htarget, hrest⟩
  | iterEnd _ heq =>
    simp only [heq, List.forall_mem_cons] at hC
    obtain ⟨-, -, hrest⟩ := hC
    exact ⟨hip', hrest⟩
  | @iterAgain _ c a _ _ heq =>
    simp only [heq, List.forall_mem_cons] at hC
    obtain ⟨hc, ha, hrest⟩ := hC
    refine ⟨?_, List.forall_mem_cons.mpr ⟨(toNat_satDec_le c).trans_lt hc, List.forall_mem_cons.mpr ⟨ha, hrest⟩⟩⟩
    rw [State.setIp_ip]
    split
    · exact ha
    · exact hip'
  | unchanged | recordFun | changePstack | store => exact ⟨hip', hC⟩

/-- Settles O49, by cases on what the decoded instruction may have done with `ip` and the call stack. -/
theorem stepKeepsPointersBelowWrap : Obligations.StepKeepsPointersBelowWrap := by
  intro s t hprog hlen hs hstep
  obtain ⟨-, hC, hF⟩ := pointersBelowWrap_iff.mp hs
  obtain ⟨i, hfetch, h⟩ := completes_of_step hstep
  have hadv := toNat_advance_ip hprog hfetch
  have hlt := ip_lt_plen_of_fetchInstr hfetch
  have hip : s.advance.ip.toNat ≤ s.advance.plen := hadv.trans_le hlt
  have hfits : s.advance.plen ≤ 2 ^ 64 := hprog.1.trans hprog.2
  obtain ⟨hip', hC'⟩ := h.ip_cstack_below hlen hip hC hF hfits
  refine pointersBelowWrap_iff.mpr ?_
  unfold pointerBound
  rw [h.plen_eq]
  refine ⟨hip', hC', ?_⟩
  rcases h.fstack_eq with hF' | ⟨-, -, hF'⟩
  · rw [hF']
    exact hF
  · rw [hF', State.a0_advance]
    exact List.forall_mem_cons.mpr ⟨hlt, hF⟩

/-! ## The frame of a completed instruction -/

/-- A write of the data memory is read at its own address only (`20_memory.md` R54). -/
theorem Memory.read_write_or {m : Memory} (h : m.wf = true) (a b : Nat) (v : Word) :
    (m.write a v).read b = m.read b ∨ b = a := by
  by_cases hb : b = a
  · exact .inr hb
  · exact .inl (by rw [Memory.read_write h, if_neg hb])

/-- Settles O41, by cases on what the instruction may have done. -/
theorem completedInstructionFrame : Obligations.CompletedInstructionFrame := by
  intro i s t hmem hexec
  have h := completes_of_exec hexec
  refine ⟨h.config_eq, h.imem_eq, ?_⟩
  cases h with
  | changePstack hp hi =>
    exact ⟨.inl rfl, .inl rfl, .inl rfl, .inl rfl, .inr ⟨hi, hp⟩, .inl rfl, fun _ => .inl rfl⟩
  | store hp =>
    exact ⟨.inl rfl, .inl rfl, .inl rfl, .inl rfl, .inr ⟨by simp [Instr.opcode], hp⟩, .inl rfl,
      fun a => (Memory.read_write_or hmem _ a _).imp_right fun ha => ⟨rfl, hp, ha⟩⟩
  | takeBranch hp hi =>
    exact ⟨.inl rfl, .inl rfl, .inl rfl, .inr ⟨List.mem_append_left [Opcode.call, .ret, .loop, .iter] hi, hp⟩,
      .inr ⟨not_mem_of_isBranch hi, hp⟩,
      .inr (.inr (.inr (.inl ⟨List.mem_append_left [Opcode.call, .ret] hi, hp⟩))), fun _ => .inl rfl⟩
  | iterAgain hp =>
    refine ⟨.inl rfl, .inl rfl, .inl rfl, .inr ⟨by simp [Instr.opcode], hp⟩, .inl rfl, ?_, fun _ => .inl rfl⟩
    cases hr : s.config.iterRedirect with
    | true => exact .inr (.inr (.inr (.inr ⟨rfl, hp, rfl⟩)))
    | false => exact .inl rfl
  | unchanged => simp
  | skipLiterals hp | recordFun hp | enterRecital hp | pushLiterals hp | ret hp | loop hp | iterEnd hp =>
    simp [Instr.opcode, hp]
  | call hp => simp [State.enterFunction, Instr.opcode, hp]

/-! ## The reset state -/

/-- Settles O50. -/
theorem resetValues : Obligations.ResetValues :=
  ⟨rfl, rfl, rfl, rfl, rfl, rfl, fun _ _ => rfl, rfl, rfl⟩

/-- The default configuration is one the spec admits. -/
theorem wf_default_config : Config.default.wf = true := by decide

/-- Settles O51. -/
theorem resetMeetsMachineInvariant : Obligations.ResetMeetsMachineInvariant := by
  refine ⟨⟨⟨rfl, rfl, rfl⟩, ⟨Nat.zero_le _, le_rfl⟩, reset_mem_wf, rfl⟩, ⟨List.Pairwise.nil, fun _ => rfl⟩, ⟨?_, rfl, rfl⟩,
    wf_default_config⟩
  decide

end Sys2Proof.Machine
end

section
/-! SUPPORT. The data memory along a run: a Word stays at its address until a `Sto` to that address runs, and a `Lod` pushes the
Word its address holds (`20_memory.md` R61 (2)). -/

namespace Sys2Proof.Machine

open Sys2Proof.Claims

/-! ## A step whose instruction is known -/

/-- `NextIs` says what the step cycle fetches and decodes (R100). -/
theorem nextIs_iff {s : State} {i : Instr} : NextIs s i ↔ fetchInstr s = .ok i := fetchInstr_eq_ok.symm

theorem step_of_nextIs {s : State} {i : Instr} (h : NextIs s i) : step s = exec i s.advance := by
  simp only [step, nextIs_iff.mp h]

/-- An address is its immediate: 64 bits fit a Word (R180). -/
theorem toNat_effectiveAddress (v : Imm) : (effectiveAddress v).toNat = v.toNat := by
  rw [effectiveAddress, zext, BitVec.toNat_setWidth_of_le (by decide)]

/-- A stack with a free place is not at its capacity. -/
theorem ne_length_of_hasRoom {cap : Capacity} {S : Stack} (h : hasRoom cap S 1 = true) : cap ≠ some S.length := by
  rintro rfl
  simp [hasRoom] at h

/-- A step on a `Lod` in Recital pushes the Word at its address (R181). -/
theorem step_lod {v : Imm} {s : State} (hp : s.phase = .recital) (hnext : NextIs s (.lod v)) (hv : v.toNat < memWords)
    (hroom : hasRoom s.config.pstackCap s.pstack 1 = true) :
    step s = .next { s with ip := s.ip + 1, pstack := s.mem.read v.toNat :: s.pstack } := by
  have ha := toNat_effectiveAddress v
  have hread : memRead s.advance (effectiveAddress v) = .ok (s.mem.read v.toNat) :=
    memRead_eq_ok.mpr ⟨ha.trans_lt hv, by rw [ha]; rfl⟩
  have hpush := pushP_eq_ok (s := s.advance) (v := s.mem.read v.toNat) |>.mpr ⟨ne_length_of_hasRoom hroom, rfl⟩
  rw [step_of_nextIs hnext, exec_lod_recital v (s := s.advance) hp, finish_eq_next]
  exact bind_eq_ok.mpr ⟨_, hread, hpush⟩

/-! ## One Word of the data memory -/

/-- The data memory is canonical and holds the Word `x` at address `a`. -/
def CellHolds (a : Nat) (x : Word) (s : State) : Prop := MemoryCanonical s ∧ s.mem.read a = x

/-- A step on a `Sto` in Recital that completes leaves the popped Word at its address (R180). -/
theorem cellHolds_of_step_sto {v : Imm} {x : Word} {P : Stack} {s t : State} (hp : s.phase = .recital)
    (hm : MemoryCanonical s) (hP : s.pstack = x :: P) (hnext : NextIs s (.sto v)) (h : step s = .next t) :
    v.toNat < memWords ∧ CellHolds v.toNat x t := by
  rw [step_of_nextIs hnext, exec_sto_recital v (s := s.advance) hp, finish_eq_next] at h
  obtain ⟨w, Q, hQ, ha, rfl⟩ := storeTop_ok h
  cases hP.symm.trans hQ
  rw [toNat_effectiveAddress] at ha ⊢
  exact ⟨ha, Memory.wf_write hm ha x, (Memory.read_write hm _ _ x).trans (if_pos rfl)⟩

/-- Recital is never left. -/
theorem Completes.recital {i : Instr} {s t : State} (h : Completes s i t) (hp : s.phase = .recital) :
    t.phase = .recital := by
  cases h with
  | enterRecital => rfl
  | _ => exact hp

/-- Only a `Sto` to an address in Recital changes the Word there (R54, R180). -/
theorem Completes.read_eq {i : Instr} {s t : State} {v : Imm} (h : Completes s i t) (hm : MemoryCanonical s)
    (hi : ¬ (s.phase = .recital ∧ i = .sto v)) : t.mem.read v.toNat = s.mem.read v.toNat := by
  cases h with
  | @store v' w _ hp =>
    have hne : v.toNat ≠ (effectiveAddress v').toNat := fun heq =>
      hi ⟨hp, congrArg Instr.sto (BitVec.eq_of_toNat_eq (heq.trans (toNat_effectiveAddress v'))).symm⟩
    exact (Memory.read_write hm _ _ w).trans (if_neg hne)
  | _ => rfl

/-! ## Along the steps of a run -/

theorem recital_of_step {s t : State} (h : step s = .next t) (hp : s.phase = .recital) : t.phase = .recital := by
  obtain ⟨i, -, hi⟩ := completes_of_step h
  exact hi.recital hp

theorem cellHolds_of_step {v : Imm} {x : Word} {s t : State} (hno : ¬ (s.phase = .recital ∧ NextIs s (.sto v)))
    (h : step s = .next t) (hs : CellHolds v.toNat x s) : CellHolds v.toNat x t := by
  obtain ⟨hm, hread⟩ := hs
  obtain ⟨i, hfetch, hi⟩ := completes_of_step h
  refine ⟨hi.mem_wf hm, (hi.read_eq hm ?_).trans hread⟩
  rintro ⟨hp, rfl⟩
  exact hno ⟨hp, nextIs_iff.mpr hfetch⟩

/-- What every step keeps that does not run the instruction `i` in Recital, a run of such steps keeps. -/
theorem stepsWithout_keeps {i : Instr} {p : State → Prop}
    (hstep : ∀ s t, ¬ (s.phase = .recital ∧ NextIs s i) → step s = .next t → p s → p t) {n : Nat} {s u : State}
    (h : stepsWithout i n s u) (hs : p s) : p u := by
  induction n generalizing s with
  | zero => exact h ▸ hs
  | succ n ih =>
    obtain ⟨t, hno, ht, hrest⟩ := h
    exact ih hrest (hstep s t hno ht hs)

theorem recital_of_stepsWithout {i : Instr} {n : Nat} {s u : State} (h : stepsWithout i n s u)
    (hp : s.phase = .recital) : u.phase = .recital :=
  stepsWithout_keeps (p := fun s => s.phase = .recital) (fun _ _ _ => recital_of_step) h hp

theorem cellHolds_of_stepsWithout {v : Imm} {x : Word} {n : Nat} {s u : State} (h : stepsWithout (.sto v) n s u)
    (hs : CellHolds v.toNat x s) : CellHolds v.toNat x u :=
  stepsWithout_keeps (fun _ _ => cellHolds_of_step) h hs

/-- After a launch every Word of the data memory is 0 (R39, R247). -/
theorem cellHolds_of_launch {program : List Word} {r s : State} (h : launch program r = .next s) (a : Nat) :
    CellHolds a 0 s := by
  unfold launch hostRead at h
  split at h
  · cases h
    exact ⟨reset_mem_wf, rfl⟩
  · cases h

/-- Settles O39: the `Sto`, or the launch, puts the Word at the address, each step between keeps it there, by induction on their
number, and the `Lod` pushes it. -/
theorem loadReadsTheLatestStore : Obligations.LoadReadsTheLatestStore := by
  refine ⟨fun v x P n s t u hp hm hP hsto hstep hrun hlod hroom => ?_,
    fun v program n r s u hv hlaunch hrun hp hlod hroom => ?_⟩
  · obtain ⟨hv, hcell⟩ := cellHolds_of_step_sto hp hm hP hsto hstep
    obtain ⟨-, hread⟩ := cellHolds_of_stepsWithout hrun hcell
    have hpu := recital_of_stepsWithout hrun (recital_of_step hstep hp)
    rw [step_lod hpu hlod hv hroom, hread]
  · obtain ⟨-, hread⟩ := cellHolds_of_stepsWithout hrun (cellHolds_of_launch hlaunch v.toNat)
    rw [step_lod hp hlod hv hroom, hread]

end Sys2Proof.Machine
end

section
/-! SUPPORT. The decoder and the encoder against each other: the fields of a Word as naturals, the tag table of an admitted
configuration, and what both make of it (`30_encoding.md` R70 to R77). -/

namespace Sys2Proof

/-! ## The fields of a Word -/

theorem toNat_tagField (w : Word) : (tagField w).toNat = w.toNat / 2 ^ 64 := by
  rw [tagField, BitVec.extractLsb'_toNat, Nat.shiftRight_eq_div_pow]
  omega

theorem toNat_immField (w : Word) : (immField w).toNat = w.toNat % 2 ^ 64 := by
  rw [immField, BitVec.extractLsb'_toNat, Nat.shiftRight_zero]

theorem tagField_append_immField (w : Word) : tagField w ++ immField w = w :=
  BitVec.extractLsb'_append_extractLsb' (w := 64) (len := 64)

/-! ## The kept bits of an immediate -/

theorem ImmBits.width_le (b : ImmBits) : b.width ≤ 64 := by
  cases b <;> decide

theorem keepImm_eq_ofNat (c : Config) (v : BitVec 64) :
    keepImm c v = BitVec.ofNat 64 (v.toNat % 2 ^ c.immBits.width) := by
  rw [← keepImm_toNat, BitVec.ofNat_toNat, BitVec.setWidth_eq]

/-- The kept bits of a Word are its low `IMM_BITS` bits, because the immediate field holds all of them. -/
theorem keepImm_immField (c : Config) (w : Word) :
    keepImm c (immField w) = BitVec.ofNat 64 (w.toNat % 2 ^ c.immBits.width) := by
  rw [keepImm_eq_ofNat, toNat_immField, Nat.mod_mod_of_dvd _ (Nat.pow_dvd_pow 2 c.immBits.width_le)]

/-- The decoder drops nothing of an immediate whose bits 63 to `IMM_BITS` are 0. -/
theorem keepImm_eq_self_iff (c : Config) (v : BitVec 64) : keepImm c v = v ↔ v.toNat < 2 ^ c.immBits.width := by
  rw [← BitVec.toNat_inj, keepImm_toNat, Nat.mod_eq_iff_lt (Nat.two_pow_pos _).ne']

/-! ## The tag table of an admitted configuration -/

theorem mem_defaultTag (op : Opcode) : op ∈ defaultTag := by
  cases op <;> decide

theorem Config.length_tag {c : Config} (h : c.wf = true) : c.tag.length = 26 := by
  simp only [Config.wf, Bool.and_eq_true, decide_eq_true_eq] at h
  obtain ⟨⟨-, hlen⟩, -⟩ := h
  exact hlen

theorem Config.nodup_tag {c : Config} (h : c.wf = true) : c.tag.Nodup := by
  simp only [Config.wf, Bool.and_eq_true, decide_eq_true_eq] at h
  obtain ⟨-, hnodup⟩ := h
  exact hnodup

/-- An admitted table is a rearrangement of the default one: 26 opcodes without a duplicate are all of them (D1). -/
theorem Config.tag_perm {c : Config} (h : c.wf = true) : c.tag.Perm defaultTag :=
  ((Config.nodup_tag h).subperm fun op _ => mem_defaultTag op).perm_of_length_le (Config.length_tag h).ge

theorem Config.mem_tag {c : Config} (h : c.wf = true) (op : Opcode) : op ∈ c.tag :=
  (Config.tag_perm h).mem_iff.mpr (mem_defaultTag op)

theorem tagOf_lt {c : Config} (h : c.wf = true) (op : Opcode) : tagOf c op < 26 :=
  (List.idxOf_lt_length_of_mem (Config.mem_tag h op)).trans_eq (Config.length_tag h)

/-- The table holds an opcode at its tag and nowhere else. -/
theorem getElem?_tag_eq_some_iff {c : Config} (h : c.wf = true) {k : Nat} {op : Opcode} :
    c.tag[k]? = some op ↔ tagOf c op = k := by
  constructor
  · intro hk
    obtain ⟨hlt, rfl⟩ := List.getElem?_eq_some_iff.mp hk
    exact (Config.nodup_tag h).idxOf_getElem k hlt
  · rintro rfl
    exact getElem?_tagOf c op (Config.mem_tag h op)

theorem exists_tagOf_eq {c : Config} (h : c.wf = true) {k : Nat} (hk : k < 26) : ∃ op, tagOf c op = k :=
  ⟨_, (getElem?_tag_eq_some_iff h).mp (List.getElem?_eq_getElem (hk.trans_eq (Config.length_tag h).symm))⟩

/-! ## Decode and encode -/

/-- Under an admitted configuration the decoder answers exactly the opcode whose tag the Word carries (R72). -/
theorem decode_eq_ok_iff_tagOf {c : Config} (h : c.wf = true) {w : Word} {i : Instr} :
    decode c w = .ok i ↔ tagOf c i.opcode = w.toNat / 2 ^ 64 ∧ i.var = keepImm c (immField w) := by
  rw [decode_eq_ok_iff, getElem?_tag_eq_some_iff h, toNat_tagField]
  constructor
  · rintro ⟨-, htag, hvar⟩
    exact ⟨htag, hvar⟩
  · rintro ⟨htag, hvar⟩
    exact ⟨htag ▸ tagOf_lt h _, htag, hvar⟩

theorem decode_eq_error_of_le (c : Config) {w : Word} (h : 26 ≤ w.toNat / 2 ^ 64) : decode c w = .error .illegalOp := by
  rw [decode, toNat_tagField, if_pos h]

/-- An encoding is its tag times `2^64`, plus its immediate (R71). -/
theorem toNat_encode {c : Config} (h : c.wf = true) (i : Instr) :
    (encode c i).toNat = tagOf c i.opcode * 2 ^ 64 + i.var.toNat := by
  have htag := tagOf_lt h i.opcode
  rw [encode, BitVec.toNat_append, ← Nat.shiftLeft_add_eq_or_of_lt i.var.isLt, Nat.shiftLeft_eq, BitVec.toNat_ofNat,
    Nat.mod_eq_of_lt (by omega)]

theorem encode_eq_ofNat {c : Config} (h : c.wf = true) (i : Instr) :
    encode c i = BitVec.ofNat 128 (tagOf c i.opcode * 2 ^ 64 + i.var.toNat) := by
  rw [← toNat_encode h, BitVec.ofNat_toNat, BitVec.setWidth_eq]

/-- Decode gives back what encode was given, but for the immediate bits it drops. -/
theorem decode_encode {c : Config} (h : c.wf = true) (i : Instr) :
    decode c (encode c i) = .ok (i.opcode.instr (keepImm c i.var)) := by
  have hvar := i.var.isLt
  rw [decode_eq_ok_iff_tagOf h, Opcode.opcode_instr, Opcode.var_instr, toNat_encode h, encode, immField_append]
  exact ⟨by omega, rfl⟩

theorem decode_encode_of_wellFormed {c : Config} (h : c.wf = true) {i : Instr} (hi : WellFormed c i = true) :
    decode c (encode c i) = .ok i := by
  rw [decode_encode h, (keepImm_eq_self_iff c i.var).mpr (of_decide_eq_true hi), Instr.instr_opcode_var]

/-- What was decoded encodes to the Word's own tag, with the kept bits as its immediate. -/
theorem encode_of_decode {c : Config} (h : c.wf = true) {w : Word} {i : Instr} (hd : decode c w = .ok i) :
    encode c i = tagField w ++ keepImm c (immField w) := by
  obtain ⟨htag, hvar⟩ := (decode_eq_ok_iff_tagOf h).mp hd
  rw [encode, htag, hvar, ← toNat_tagField, BitVec.ofNat_toNat, BitVec.setWidth_eq]

/-! ## The statements -/

/-- Settles O1. -/
theorem decodeInvertsEncode : Obligations.DecodeInvertsEncode := fun c h i =>
  ⟨decode_encode_of_wellFormed h, by rw [decode_encode h, keepImm_eq_ofNat]⟩

/-- Settles O2: the encoding has the Word's own tag, so it is the Word exactly when the decoder dropped no set bit. -/
theorem encodeInvertsDecodeWhenDroppedBitsZero : Obligations.EncodeInvertsDecodeWhenDroppedBitsZero := by
  intro c h w i hd
  calc encode c i = w
      ↔ tagField w ++ keepImm c (immField w) = tagField w ++ immField w := by
        rw [encode_of_decode h hd, tagField_append_immField]
    _ ↔ (immField w).toNat < 2 ^ c.immBits.width := by rw [BitVec.append_right_inj, keepImm_eq_self_iff]
    _ ↔ (w.toNat % 2 ^ 64) / 2 ^ c.immBits.width = 0 := by
        rw [toNat_immField, Nat.div_eq_zero_iff_lt (Nat.two_pow_pos _)]

/-- Settles O3: the table has an opcode for each tag below 26, and the decoder refuses the others before it looks. -/
theorem decodeAnswersByTheWholeTag : Obligations.DecodeAnswersByTheWholeTag := by
  intro c h w
  refine ⟨fun hle => ?_, decode_eq_error_of_le c⟩
  obtain ⟨op, hop⟩ := exists_tagOf_eq h (Nat.lt_succ_of_le hle)
  refine ⟨op, hop, (decode_eq_ok_iff_tagOf h).mpr ?_⟩
  rw [Opcode.opcode_instr, Opcode.var_instr, keepImm_immField]
  exact ⟨hop, rfl⟩

/-- A row of the default table decodes to its own instruction: the Word is an encoding, and 7 has no bit to drop. -/
theorem decode_tableRow (op : Opcode) :
    decode Config.default (BitVec.ofNat 128 (tagOf Config.default op * 2 ^ 64 + 7)) = .ok (op.instr 7) := by
  have hword : encode Config.default (op.instr 7) = BitVec.ofNat 128 (tagOf Config.default op * 2 ^ 64 + 7) := by
    rw [encode_eq_ofNat Machine.wf_default_config, Opcode.opcode_instr, Opcode.var_instr]
    rfl
  have hfits : WellFormed Config.default (op.instr 7) = true := by
    rw [WellFormed, Opcode.var_instr]
    decide
  rw [← hword, decode_encode_of_wellFormed Machine.wf_default_config hfits]

/-- Settles O4: each row by `decode_tableRow`, and the table in its order. -/
theorem everyTableRowDecodes : Obligations.EveryTableRowDecodes := by
  refine ⟨mem_defaultTag, ?_⟩
  simp only [decode_tableRow]
  rfl

/-- Settles O5, by running the decoder on the eight Words. -/
theorem writtenOutWordsDecode : Obligations.WrittenOutWordsDecode :=
  ⟨rfl, rfl, rfl, rfl, rfl, rfl, rfl, rfl⟩

end Sys2Proof
end

section
/-! SUPPORT. The assembler: what it does with a token of each class, with and without a mnemonic that waits for its number
(`30_encoding.md` R91 to R93). -/

namespace Sys2Proof.Machine

/-! ## The spellings -/

theorem classify_of_mem_spellings : ∀ e ∈ spellings, classify e.1 = .mnemonic e.2 := by decide

/-- The spellings follow the order of the opcode table (R75). -/
theorem map_snd_spellings : spellings.map Prod.snd = defaultTag := rfl

theorem exists_spelling (op : Opcode) : ∃ t ∈ spellings.map Prod.fst, classify t = .mnemonic op := by
  have hop : op ∈ spellings.map Prod.snd := map_snd_spellings ▸ mem_defaultTag op
  obtain ⟨e, he, rfl⟩ := List.mem_map.mp hop
  exact ⟨e.1, List.mem_map_of_mem he, classify_of_mem_spellings e he⟩

/-! ## A token with no mnemonic pending -/

section
variable {c : Config} {t : List Char} {ts : List (List Char)}

theorem assembleTokens_mnemonic {op : Opcode} (h : classify t = .mnemonic op) :
    assembleTokens c none (t :: ts) = assembleTokens c (some op) ts := by
  rw [assembleTokens, h]

theorem assembleTokens_literal {n : Nat} (h : classify t = .number n) (hn : n < 2 ^ 128) :
    assembleTokens c none (t :: ts) = (assembleTokens c none ts).prepend (BitVec.ofNat 128 n) := by
  rw [assembleTokens, h]
  exact if_pos hn

theorem assembleTokens_other (h : classify t = .other) :
    assembleTokens c none (t :: ts) = .formatError .opcode (some t) := by
  rw [assembleTokens, h]

/-! ## A token after a mnemonic -/

theorem assembleTokens_pending_end (op : Opcode) : assembleTokens c (some op) [] = .formatError .number none := by
  rw [assembleTokens]

theorem assembleTokens_pending_mnemonic (op : Opcode) {op2 : Opcode} (h : classify t = .mnemonic op2) :
    assembleTokens c (some op) (t :: ts) = .formatError .number (some t) := by
  rw [assembleTokens, h]

theorem assembleTokens_pending_number (op : Opcode) {n : Nat} (h : classify t = .number n) (hn : n < 2 ^ 64) :
    assembleTokens c (some op) (t :: ts) =
      (assembleTokens c none ts).prepend (encode c (op.instr (BitVec.ofNat 64 n))) := by
  rw [assembleTokens, h]
  exact if_pos hn

theorem assembleTokens_pending_other (op : Opcode) (h : classify t = .other) :
    assembleTokens c (some op) (t :: ts) = .formatError .number (some t) := by
  rw [assembleTokens, h]

end

/-- Settles O56: the mnemonic is held pending, and the next token's class decides. -/
theorem assemblerEmitsEncodedWords : Obligations.AssemblerEmitsEncodedWords := by
  refine ⟨exists_spelling, fun c m t op n rest hm => ?_⟩
  have hpending (ts) : assembleTokens c none (m :: ts) = assembleTokens c (some op) ts := assembleTokens_mnemonic hm
  simp only [hpending]
  exact ⟨assembleTokens_pending_end op, fun _ => assembleTokens_pending_mnemonic op, assembleTokens_pending_number op,
    assembleTokens_literal, fun ht => ⟨assembleTokens_other ht, assembleTokens_pending_other op ht⟩⟩

end Sys2Proof.Machine
end

section
/-! SUPPORT. The step cycle and Warmup: what a fetch that fails and each kind of Word do to a state in Warmup, that Warmup scans
forward and ends, and that it enters Recital where the scan of the program says (`40_dispatch_warmup.md` R100 to R110). -/

namespace Sys2Proof.Machine

open Sys2Proof.Claims

/-! ## The step cycle -/

/-- Settles O6: an instruction that is fetched and decoded is run at the advanced `ip`. -/
theorem stepRunsTheDecodedInstruction : Obligations.StepRunsTheDecodedInstruction :=
  fun _ w _ hw hd => step_of_nextIs ⟨w, hw, hd⟩

/-- A fetch or a decode that fails is the result of the step (R100). -/
theorem step_of_fetchInstr_error {s : State} {f : Fault} (h : fetchInstr s = .error f) : step s = .fault f := by
  simp only [step, h]

theorem step_noExec {s : State} (h : s.plen ≤ s.ip.toNat) : step s = .fault (.noExec s) :=
  step_of_fetchInstr_error (fetchInstr_eq_error.mpr (.inl ⟨h, rfl⟩))

/-- Settles O7: the two ways in which fetch and decode fail. -/
theorem failedFetchChangesNothing : Obligations.FailedFetchChangesNothing := fun _ =>
  ⟨step_noExec, fun w hw htag =>
    step_of_fetchInstr_error (fetchInstr_eq_error.mpr (.inr ⟨w, hw, decode_eq_error_of_le _ htag, rfl⟩))⟩

theorem byPhase_ne_refused (s : State) (warmup recital : State → Res State) (r : Refusal) :
    byPhase s warmup recital ≠ .refused r := by
  unfold byPhase
  split <;> exact finish_ne_refused _ r

/-- Every arm of exec dispatches on the phase, and nothing that does so refuses. -/
theorem exec_ne_refused (i : Instr) (s : State) (r : Refusal) : exec i s ≠ .refused r := by
  cases i <;> apply byPhase_ne_refused

/-- A step completes or raises. -/
theorem step_next_or_fault (s : State) : (∃ t, step s = .next t) ∨ ∃ f, step s = .fault f := by
  cases h : step s with
  | next t => exact .inl ⟨t, rfl⟩
  | fault f => exact .inr ⟨f, rfl⟩
  | refused r =>
    unfold step at h
    split at h
    · exact absurd h (exec_ne_refused _ _ r)
    · cases h

/-! ## Each kind of Word in Warmup -/

theorem zext_eq_ofNat (v : Imm) : zext v = BitVec.ofNat 128 v.toNat := (BitVec.ofNat_toNat 128 v).symm

/-- Everything `Exe` in Warmup does (R107): the phase is written, and then the last entry of `F` is loaded if there is one. -/
theorem enterRecital_cons {s : State} {target : Word} {F : Stack} (h : s.fstack = target :: F) :
    enterRecital s = .ok ((s.setPhase .recital).setIp target) :=
  bind_eq_ok.mpr ⟨target, lastF_eq_ok.mpr ⟨F, h⟩, rfl⟩

theorem enterRecital_nil {s : State} (h : s.fstack = []) :
    enterRecital s = .error (.stackUnderflow (s.setPhase .recital)) :=
  bind_eq_error.mpr (.inl (lastF_eq_error.mpr ⟨h, rfl⟩))

/-- Settles O9: the arm of each of the 23 opcodes gives Warmup the meaning of doing nothing. -/
theorem otherOpcodesIgnoredInWarmup : Obligations.OtherOpcodesIgnoredInWarmup := by
  intro i s hp hfun hpush hexe
  cases i with
  | push => exact absurd rfl hpush
  | fun_ => exact absurd rfl hfun
  | exe => exact absurd rfl hexe
  | _ => exact byPhase_warmup hp ignoredInWarmup _

/-- Settles O10: `Push` adds its immediate to `ip`, and past the end of the program the next fetch fails. -/
theorem pushInWarmupSkipsItsLiterals : Obligations.PushInWarmupSkipsItsLiterals := by
  intro v s hp
  rw [← zext_eq_ofNat]
  exact ⟨exec_push_warmup v hp, fun h => step_noExec h⟩

/-- Settles O13: `F` has a last entry or it has none. -/
theorem exeInWarmupEntersRecital : Obligations.ExeInWarmupEntersRecital := by
  intro v s hp
  rw [exec_exe_warmup v hp]
  exact ⟨fun _ _ hF => congrArg finish (enterRecital_cons hF), fun hF => congrArg finish (enterRecital_nil hF)⟩

/-! ## A step in Warmup -/

section

variable {s : State} {i : Instr} {v : Imm} (hp : s.phase = .warmup)
include hp

/-- A step on a `Fun` word in Warmup tries to push the offset the step began at (R105). -/
theorem step_fun_warmup (hnext : NextIs s (.fun_ v)) : step s = finish (pushF s.advance s.ip) := by
  rw [step_of_nextIs hnext, exec_fun_warmup v (s := s.advance) hp, State.a0_advance]

theorem step_push_warmup (hnext : NextIs s (.push v)) : step s = .next (s.advance.skip (zext v)) := by
  rw [step_of_nextIs hnext, exec_push_warmup v (s := s.advance) hp, finish_ok]

theorem step_exe_warmup (hnext : NextIs s (.exe v)) : step s = finish (enterRecital s.advance) := by
  rw [step_of_nextIs hnext, exec_exe_warmup v (s := s.advance) hp]

theorem step_other_warmup (hnext : NextIs s i) (hfun : i.opcode ≠ .fun_) (hpush : i.opcode ≠ .push)
    (hexe : i.opcode ≠ .exe) : step s = .next s.advance := by
  rw [step_of_nextIs hnext, otherOpcodesIgnoredInWarmup i s.advance hp hfun hpush hexe]

theorem step_fun_warmup_of_room (hnext : NextIs s (.fun_ v)) (hroom : s.config.fstackCap ≠ some s.fstack.length) :
    step s = .next (s.advance.setFstack (s.ip :: s.fstack)) := by
  rw [step_fun_warmup hp hnext, finish_eq_next]
  exact pushF_eq_ok.mpr ⟨hroom, rfl⟩

end

/-- Settles O11: the push on `F`, with a free place and without one. -/
theorem funInWarmupRecordsItsOffset : Obligations.FunInWarmupRecordsItsOffset := by
  intro s w v hp hw hd
  refine ⟨fun hroom => step_fun_warmup_of_room hp ⟨w, hw, hd⟩ (ne_length_of_hasRoom hroom), fun hfull => ?_⟩
  rw [step_fun_warmup hp ⟨w, hw, hd⟩, finish_eq_fault]
  exact pushF_eq_error.mpr ⟨hfull, rfl⟩

/-! ## Warmup scans forward -/

/-- In Warmup an instruction writes nothing but `ip`, `F` and the phase (R104). -/
theorem Completes.warmup_frame {i : Instr} {s t : State} (h : Completes s i t) (hp : s.phase = .warmup) :
    t.pstack = s.pstack ∧ t.cstack = s.cstack ∧ t.mem = s.mem ∧ t.ebp = s.ebp := by
  cases h with
  | unchanged | skipLiterals | recordFun | enterRecital => exact ⟨rfl, rfl, rfl, rfl⟩
  | changePstack hr | pushLiterals hr | store hr | call hr | takeBranch hr | ret hr | loop hr | iterEnd hr
  | iterAgain hr =>
    cases hp.symm.trans hr

/-- The entries of the function table stay (R27). -/
theorem Completes.fstack_suffix {i : Instr} {s t : State} (h : Completes s i t) : s.fstack <:+ t.fstack := by
  rcases h.fstack_eq with hF | ⟨-, -, hF⟩
  · rw [hF]
  · rw [hF]
    exact List.suffix_cons _ _

/-- A step that stays in Warmup moves `ip` forward (R104). -/
theorem ip_lt_of_step_warmup {s t : State} (hs : ProgramFits s) (h : step s = .next t) (ht : t.phase = .warmup) :
    s.ip.toNat < t.ip.toNat := by
  obtain ⟨i, hfetch, hi⟩ := completes_of_step h
  have hadv := toNat_advance_ip hs hfetch
  have hlt := ip_lt_plen_of_fetchInstr hfetch
  obtain ⟨-, hle⟩ := hi.warmup_ip (by omega) ht
  omega

/-- Settles O14, by what the decoded instruction may have done in Warmup. -/
theorem warmupIsALinearScan : Obligations.WarmupIsALinearScan := by
  intro s t hs hp h
  obtain ⟨i, -, hi⟩ := completes_of_step h
  obtain ⟨hP, hC, hmem, hebp⟩ := hi.warmup_frame hp
  exact ⟨hP, hC, hmem, hebp, hi.imem_eq, hi.config_eq, ip_lt_of_step_warmup hs h, hi.fstack_suffix⟩

/-- Only `Exe` leaves Warmup (R101). -/
theorem Completes.exe_of_leaves_warmup {i : Instr} {s t : State} (h : Completes s i t) (hp : s.phase = .warmup)
    (ht : t.phase = .recital) : ∃ v, i = .exe v := by
  cases h with
  | @enterRecital v => exact ⟨v, rfl⟩
  | unchanged | skipLiterals | recordFun | changePstack | pushLiterals | store | call | takeBranch | ret | loop
  | iterEnd | iterAgain =>
    cases hp.symm.trans ht

/-- Settles O17: no instruction leaves Recital, and the one that leaves Warmup is an `Exe`, which loads the last entry of `F`. -/
theorem phaseChangesOnceByExe : Obligations.PhaseChangesOnceByExe := by
  refine fun s t h => ⟨recital_of_step h, fun hp ht => ?_⟩
  obtain ⟨i, hfetch, hi⟩ := completes_of_step h
  obtain ⟨v, rfl⟩ := hi.exe_of_leaves_warmup hp ht
  obtain ⟨w, hw, hd⟩ := nextIs_iff.mpr hfetch
  rw [step_exe_warmup hp ⟨w, hw, hd⟩, finish_eq_next] at h
  obtain ⟨target, hlast, hset⟩ := bind_eq_ok.mp h
  obtain ⟨F, hF⟩ := lastF_eq_ok.mp hlast
  cases hset
  exact ⟨w, v, F, hw, hd, hF, rfl⟩

/-! ## Warmup ends -/

/-- Warmup is over after `n` steps from `s`: the run has ended in a result that is not `Ok`, or the machine is in Recital. -/
def WarmupOver (n : Nat) (s : State) : Prop :=
  (∃ f, hostSteps n s = .fault f) ∨ ∃ t, hostSteps n s = .next t ∧ t.phase = .recital

theorem warmupOver_succ_of_next {n : Nat} {s t : State} (h : step s = .next t) (ht : WarmupOver n t) :
    WarmupOver (n + 1) s := by
  unfold WarmupOver
  rwa [hostSteps_succ_of_next n h]

theorem warmupOver_one_of_fault {s : State} {f : Fault} (h : step s = .fault f) : WarmupOver 1 s :=
  .inl ⟨f, hostSteps_succ_of_fault 0 h⟩

/-- With at most `k` Words from `ip` to the end of the program, Warmup is over within `k + 1` steps: each step that goes on in
Warmup leaves fewer Words, and with none left the fetch fails (R109). -/
theorem warmupOver_of_le {k : Nat} {s : State} (hs : ProgramFits s) (hp : s.phase = .warmup)
    (hk : s.plen ≤ s.ip.toNat + k) : ∃ n ≤ k + 1, WarmupOver n s := by
  induction k generalizing s with
  | zero => exact ⟨1, le_rfl, warmupOver_one_of_fault (step_noExec hk)⟩
  | succ k ih =>
    rcases step_next_or_fault s with ⟨t, h⟩ | ⟨f, h⟩
    · obtain ⟨i, -, hi⟩ := completes_of_step h
      cases ht : t.phase with
      | recital => exact ⟨1, by omega, warmupOver_succ_of_next h (.inr ⟨t, rfl, ht⟩)⟩
      | warmup =>
        have hlt := ip_lt_of_step_warmup hs h ht
        have hplen : t.plen = s.plen := hi.plen_eq
        obtain ⟨n, hn, hover⟩ := ih (hi.programFits hs) ht (by omega)
        exact ⟨n + 1, by omega, warmupOver_succ_of_next h hover⟩
    · exact ⟨1, by omega, warmupOver_one_of_fault h⟩

/-- Settles O15: at most all `PLEN` Words lie ahead of `ip`. -/
theorem warmupEnds : Obligations.WarmupEnds := fun s hs hp =>
  warmupOver_of_le (k := s.plen) hs hp (Nat.le_add_left _ _)

/-! ## Warmup follows the scan of the program -/

/-- The offsets of `Fun` words as entries of the function table. -/
def entriesOf (funs : List Nat) : Stack := funs.map (BitVec.ofNat 128)

/-- The state a scan that ends at an `Exe` leads to from `s` (R107, R110). -/
def State.enteredAt (s : State) (last : Nat) (before : List Nat) : State :=
  { s with phase := .recital, ip := BitVec.ofNat 128 last, fstack := entriesOf (last :: before) }

/-- A scan that ends at an `Exe` after some `Fun` decodes the Word it begins at, and goes on as that Word's opcode says. -/
theorem scan_succ_eq_entered {s : State} {n last : Nat} {before funs : List Nat}
    (h : scan s.config s.imem (n + 1) s.ip.toNat funs = some (.entered last before)) :
    ∃ i, NextIs s i ∧
      ((∃ v, i = .exe v ∧ funs = last :: before) ∨
       (∃ v, i = .fun_ v ∧
          scan s.config s.imem n (s.ip.toNat + 1) (s.ip.toNat :: funs) = some (.entered last before)) ∨
       (∃ v, i = .push v ∧ scan s.config s.imem n (s.ip.toNat + 1 + v.toNat) funs = some (.entered last before)) ∨
       (i.opcode ≠ .fun_ ∧ i.opcode ≠ .push ∧ i.opcode ≠ .exe ∧
          scan s.config s.imem n (s.ip.toNat + 1) funs = some (.entered last before))) := by
  unfold scan at h
  split at h
  · cases h
  next w hw =>
    split at h
    · cases h
    next i hd =>
      refine ⟨i, ⟨w, hw, hd⟩, ?_⟩
      cases i with
      | exe v =>
        cases funs with
        | nil => cases h
        | cons => cases h; exact .inl ⟨v, rfl, rfl⟩
      | fun_ v => exact .inr (.inl ⟨v, rfl, h⟩)
      | push v => exact .inr (.inr (.inl ⟨v, rfl, h⟩))
      | _ => exact .inr (.inr (.inr ⟨nofun, nofun, nofun, h⟩))

/-- One step in Warmup does what one visit of the scan does: it enters Recital where the scan ends, and otherwise brings `ip` and
`F` to where the scan goes on (R104 to R108). -/
theorem step_follows_scan {s : State} {n last : Nat} {before funs : List Nat} (hs : ProgramFits s)
    (hp : s.phase = .warmup) (hcap : s.config.fstackCap = none) (hF : s.fstack = entriesOf funs)
    (h : scan s.config s.imem (n + 1) s.ip.toNat funs = some (.entered last before)) :
    step s = .next (s.enteredAt last before) ∨
      ∃ a funs', step s = .next { s with ip := a, fstack := entriesOf funs' } ∧
        scan s.config s.imem n a.toNat funs' = some (.entered last before) := by
  obtain ⟨i, hnext, hi⟩ := scan_succ_eq_entered h
  have hadv : (s.ip + 1).toNat = s.ip.toNat + 1 := toNat_advance_ip hs (nextIs_iff.mp hnext)
  rcases hi with ⟨v, rfl, rfl⟩ | ⟨v, rfl, hscan⟩ | ⟨v, rfl, hscan⟩ | ⟨hfun, hpush, hexe, hscan⟩
  · refine .inl ?_
    rw [step_exe_warmup hp hnext, enterRecital_cons (s := s.advance) hF, State.enteredAt, ← hF]
    rfl
  · refine .inr ⟨s.ip + 1, s.ip.toNat :: funs, ?_, hadv ▸ hscan⟩
    have hentries : entriesOf (s.ip.toNat :: funs) = s.ip :: s.fstack := by simp [entriesOf, hF]
    rw [step_fun_warmup_of_room hp hnext (by simp [hcap]), hentries]
    rfl
  · refine .inr ⟨s.ip + 1 + zext v, funs, ?_, ?_⟩
    · rw [step_push_warmup hp hnext, ← hF]
      rfl
    · have hlt := ip_lt_plen_of_fetchInstr (nextIs_iff.mp hnext)
      obtain ⟨hlen, hmax⟩ := hs
      have hskip : (s.ip + 1 + zext v).toNat = s.ip.toNat + 1 + v.toNat := by
        rw [toNat_add_zext v (by omega), hadv]
        exact congrArg _ (toNat_effectiveAddress v)
      rwa [hskip]
  · refine .inr ⟨s.ip + 1, funs, ?_, hadv ▸ hscan⟩
    rw [step_other_warmup hp hnext hfun hpush hexe, ← hF]
    rfl

/-- The steps of Warmup follow the scan from any offset and any `Fun` words already noted, by induction on the scan's fuel. -/
theorem hostSteps_follow_scan {fuel last : Nat} {before funs : List Nat} {s : State} (hs : ProgramFits s)
    (hp : s.phase = .warmup) (hcap : s.config.fstackCap = none) (hF : s.fstack = entriesOf funs)
    (h : scan s.config s.imem fuel s.ip.toNat funs = some (.entered last before)) :
    ∃ n ≤ fuel, hostSteps n s = .next (s.enteredAt last before) := by
  induction fuel generalizing s funs with
  | zero => cases h
  | succ fuel ih =>
    rcases step_follows_scan hs hp hcap hF h with hend | ⟨a, funs', hstep, hscan⟩
    · exact ⟨1, by omega, hostSteps_succ_of_next 0 hend⟩
    · obtain ⟨n, hn, hsteps⟩ := ih (s := { s with ip := a, fstack := entriesOf funs' }) hs hp hcap rfl hscan
      exact ⟨n + 1, by omega, (hostSteps_succ_of_next n hstep).trans hsteps⟩

/-- Settles O16: the scan begins at `ip` with no `Fun` word noted, as `F` is empty. -/
theorem warmupRefinesTheScan : Obligations.WarmupRefinesTheScan :=
  fun _ _ _ _ hs hp hcap hF h => hostSteps_follow_scan hs hp hcap (funs := []) hF h

end Sys2Proof.Machine
end

section
/-! SUPPORT. The stack instructions in Recital: the states that the passes of `Push`, `Pop` and `Dup` go through, one pass from
each of them to the next, and where the passes complete or raise (`41_stack_ops.md` R119 to R122). -/

namespace Sys2Proof.Machine

/-! ## Passes along a sequence of states -/

/-- `visited 0`, `visited 1`, … are the states that the first `n` passes of a repetition go through (R119). -/
def PassesAlong (body : State → Res State) (n : Nat) (visited : Nat → State) : Prop :=
  ∀ k < n, body (visited k) = .ok (visited (k + 1))

namespace PassesAlong

variable {body : State → Res State} {m n : Nat} {visited : Nat → State} {s : State}

theorem tail (h : PassesAlong body (n + 1) visited) : PassesAlong body n fun k => visited (k + 1) :=
  fun k hk => h (k + 1) (Nat.succ_lt_succ hk)

theorem repeatTimes_succ (h : PassesAlong body (n + 1) visited) (hs : visited 0 = s) (m : Nat) :
    repeatTimes body (m + 1) s = repeatTimes body m (visited 1) := by
  rw [Machine.repeatTimes_succ, ← hs, h 0 n.succ_pos]
  rfl

/-- A repetition whose passes all complete ends in the last state visited. -/
theorem completes (h : PassesAlong body n visited) (hs : visited 0 = s) : repeatTimes body n s = .ok (visited n) := by
  induction n generalizing visited s with
  | zero => exact congrArg Except.ok hs.symm
  | succ n ih => exact (h.repeatTimes_succ hs n).trans (ih h.tail rfl)

/-- A repetition with a pass that raises ends there, with the effects of the passes before it (R119, `60_exceptions.md` R204). -/
theorem raises {f : Fault} (h : PassesAlong body m visited) (hs : visited 0 = s) (hmn : m < n)
    (hf : body (visited m) = .error f) : repeatTimes body n s = .error f := by
  induction n generalizing m visited s with
  | zero => exact absurd hmn m.not_lt_zero
  | succ n ih =>
    cases m with
    | zero => exact bind_eq_error.mpr (.inl (hs ▸ hf))
    | succ m => exact (h.repeatTimes_succ hs n).trans (ih h.tail rfl (Nat.lt_of_succ_lt_succ hmn) hf)

end PassesAlong

/-! ## Room on a stack -/

theorem hasRoom_iff {cap : Capacity} {S : Stack} {n : Nat} :
    hasRoom cap S n = true ↔ ∀ c, cap = some c → S.length + n ≤ c := by
  cases cap <;> simp [hasRoom]

/-- While fewer Words have been pushed than there is room for, the stack is not full. -/
theorem ne_length_add_of_hasRoom {cap : Capacity} {S : Stack} {k n : Nat} (h : hasRoom cap S n = true) (hk : k < n) :
    cap ≠ some (S.length + k) := by
  intro hc
  have := hasRoom_iff.mp h _ hc
  omega

theorem hasRoom_of_cap_eq {cap : Capacity} {S : Stack} {m : Nat} (h : cap = some (S.length + m)) :
    hasRoom cap S m = true := by
  simp [h, hasRoom]

/-! ## `Pop` -/

theorem discardTop_cons {s : State} {v : Word} {P : Stack} (h : s.pstack = v :: P) : discardTop s = .ok (s.setPstack P) :=
  bind_eq_ok.mpr ⟨(v, _), popP_eq_ok.mpr ⟨P, h, rfl⟩, rfl⟩

theorem discardTop_nil {s : State} (h : s.pstack = []) : discardTop s = .error (.stackUnderflow s) :=
  bind_eq_error.mpr (.inl (popP_eq_error.mpr ⟨h, rfl⟩))

/-- `s` after `k` passes of `Pop`. -/
def State.afterPops (s : State) (k : Nat) : State := { s with pstack := s.pstack.drop k }

theorem passesAlong_afterPops {s : State} {n : Nat} (h : n ≤ s.pstack.length) : PassesAlong discardTop n s.afterPops :=
  fun k hk => discardTop_cons (s := s.afterPops k) (List.drop_eq_getElem_cons (by omega))

/-- Settles O19: the passes complete while `P` has Words, and the first after that finds it empty. -/
theorem popDropsVarWords : Obligations.PopDropsVarWords := by
  intro v s hp
  rw [exec_pop_recital v hp]
  have hempty : s.afterPops s.pstack.length = { s with pstack := [] } := by simp [State.afterPops]
  rw [← hempty]
  exact ⟨fun hle => finish_eq_next.mpr ((passesAlong_afterPops hle).completes rfl), fun hlt =>
    finish_eq_fault.mpr ((passesAlong_afterPops le_rfl).raises rfl hlt (discardTop_nil List.drop_length))⟩

/-! ## `Dup` -/

/-- `s` after `k` passes of `Dup`. -/
def State.afterDups (s : State) (k : Nat) : State :=
  { s with pstack := List.replicate k (s.pstack.headD 0) ++ s.pstack }

/-- A pass that has duplicated the top, or the default 0, leaves the next pass the same Word to duplicate. -/
theorem stackTop0_replicate_append (S : Stack) (k : Nat) :
    stackTop0 (List.replicate k (S.headD 0) ++ S) = S.headD 0 := by
  cases k with
  | zero => cases S <;> rfl
  | succ k => rfl

theorem duplicateTop_afterDups (s : State) (k : Nat) :
    duplicateTop (s.afterDups k) = pushP (s.afterDups k) (s.pstack.headD 0) :=
  congrArg (pushP (s.afterDups k)) (stackTop0_replicate_append s.pstack k)

theorem length_pstack_afterDups (s : State) (k : Nat) : (s.afterDups k).pstack.length = s.pstack.length + k := by
  simp [State.afterDups, Nat.add_comm]

theorem passesAlong_afterDups {s : State} {n : Nat} (h : hasRoom s.config.pstackCap s.pstack n = true) :
    PassesAlong duplicateTop n s.afterDups := by
  intro k hk
  rw [duplicateTop_afterDups, pushP_eq_ok, length_pstack_afterDups]
  exact ⟨ne_length_add_of_hasRoom h hk, rfl⟩

theorem duplicateTop_afterDups_full {s : State} {m : Nat} (h : s.config.pstackCap = some (s.pstack.length + m)) :
    duplicateTop (s.afterDups m) = .error (.stackOverflow (s.afterDups m)) := by
  rw [duplicateTop_afterDups, pushP_eq_error, length_pstack_afterDups]
  exact ⟨h, rfl⟩

/-- Settles O20: each pass pushes the same Word, and the first that finds `P` full raises. -/
theorem dupCopiesTheTop : Obligations.DupCopiesTheTop := by
  intro v s hp
  rw [exec_dup_recital v hp]
  exact ⟨fun hroom => finish_eq_next.mpr ((passesAlong_afterDups hroom).completes rfl), fun _ hcap hlt =>
    finish_eq_fault.mpr ((passesAlong_afterDups (hasRoom_of_cap_eq hcap)).raises rfl hlt (duplicateTop_afterDups_full hcap))⟩

/-! ## `Push` -/

theorem pushLiteral_of_iFetch {s : State} {w : Word} (h : iFetch s s.ip = some w) :
    pushLiteral s = pushP s w >>= fun t => .ok t.advance := by
  simp only [pushLiteral, h]
  rfl

theorem pushLiteral_past_end {s : State} (h : s.plen ≤ s.ip.toNat) : pushLiteral s = .error (.stackUnderflow s) := by
  simp only [pushLiteral, iFetch_eq_none.mpr h, raise_eq]

/-- `s` after `k` passes of `Push`. -/
def State.afterLiterals (s : State) (k : Nat) : State :=
  { s with
    pstack := ((s.imem.drop s.ip.toNat).take k).reverse ++ s.pstack
    ip := s.ip + BitVec.ofNat 128 k }

theorem afterLiterals_zero (s : State) : s.afterLiterals 0 = s := by
  simp [State.afterLiterals]

theorem length_pstack_afterLiterals {s : State} {k : Nat} (hk : s.ip.toNat + k ≤ s.plen) :
    (s.afterLiterals k).pstack.length = s.pstack.length + k := by
  have : s.ip.toNat + k ≤ s.imem.length := hk
  simp only [State.afterLiterals, List.length_append, List.length_reverse, List.length_take, List.length_drop]
  omega

/-- Pushing the literal at `ip` and advancing leads from the state after `k` literals to the state after `k + 1`. -/
theorem afterLiterals_succ {s : State} {k : Nat} (hk : s.ip.toNat + k < s.plen) :
    s.afterLiterals (k + 1) =
      ((s.afterLiterals k).setPstack (s.imem[s.ip.toNat + k] :: (s.afterLiterals k).pstack)).advance := by
  have hw : s.imem[s.ip.toNat + k]? = some s.imem[s.ip.toNat + k] := List.getElem?_eq_getElem hk
  simp [State.afterLiterals, State.setPstack, State.setIp, List.take_add_one, hw, BitVec.ofNat_add, BitVec.add_assoc]

section

variable {s : State} {k n : Nat} (hs : ProgramFits s)
include hs

/-- Inside a program that fits, no advance past a literal wraps (`10_state.md` R22). -/
theorem toNat_ip_afterLiterals (hk : s.ip.toNat + k ≤ s.plen) : (s.afterLiterals k).ip.toNat = s.ip.toNat + k := by
  obtain ⟨hcap, hmax⟩ := hs
  simp only [State.afterLiterals]
  bv_omega

theorem iFetch_afterLiterals (hk : s.ip.toNat + k < s.plen) :
    iFetch (s.afterLiterals k) (s.afterLiterals k).ip = some s.imem[s.ip.toNat + k] := by
  rw [iFetch, toNat_ip_afterLiterals hs hk.le]
  exact List.getElem?_eq_getElem hk

theorem pushLiteral_afterLiterals (hk : s.ip.toNat + k < s.plen) :
    pushLiteral (s.afterLiterals k) =
      pushP (s.afterLiterals k) s.imem[s.ip.toNat + k] >>= fun t => .ok t.advance :=
  pushLiteral_of_iFetch (iFetch_afterLiterals hs hk)

theorem passesAlong_afterLiterals (hn : n ≤ s.plen - s.ip.toNat) (hroom : hasRoom s.config.pstackCap s.pstack n = true) :
    PassesAlong pushLiteral n s.afterLiterals := by
  intro k hk
  have hlt : s.ip.toNat + k < s.plen := by omega
  rw [pushLiteral_afterLiterals hs hlt, afterLiterals_succ hlt, bind_eq_ok]
  refine ⟨_, pushP_eq_ok.mpr ⟨?_, rfl⟩, rfl⟩
  rw [length_pstack_afterLiterals hlt.le]
  exact ne_length_add_of_hasRoom hroom hk

theorem pushLiteral_afterLiterals_full (hk : s.ip.toNat + k < s.plen)
    (hcap : s.config.pstackCap = some (s.pstack.length + k)) :
    pushLiteral (s.afterLiterals k) = .error (.stackOverflow (s.afterLiterals k)) := by
  rw [pushLiteral_afterLiterals hs hk, bind_eq_error, pushP_eq_error, length_pstack_afterLiterals hk.le]
  exact .inl ⟨hcap, rfl⟩

end

/-- With every Word up to the end of the program read, `ip` is `PLEN`, or where it was if that is past the end. -/
theorem afterLiterals_to_end (s : State) :
    s.afterLiterals (s.plen - s.ip.toNat) = { s with
      pstack := (s.imem.drop s.ip.toNat).reverse ++ s.pstack
      ip := BitVec.ofNat 128 (max s.ip.toNat s.plen) } := by
  have hall : (s.imem.drop s.ip.toNat).take (s.plen - s.ip.toNat) = s.imem.drop s.ip.toNat :=
    List.take_of_length_le List.length_drop.le
  have hip : s.ip + BitVec.ofNat 128 (s.plen - s.ip.toNat) = BitVec.ofNat 128 (max s.ip.toNat s.plen) := by
    rw [← add_tsub_eq_max, BitVec.ofNat_add, BitVec.ofNat_toNat, BitVec.setWidth_eq]
  rw [State.afterLiterals, hall, hip]

theorem pushLiteral_afterLiterals_to_end {s : State} (hs : ProgramFits s) :
    pushLiteral (s.afterLiterals (s.plen - s.ip.toNat)) =
      .error (.stackUnderflow (s.afterLiterals (s.plen - s.ip.toNat))) := by
  obtain ⟨hcap, hmax⟩ := hs
  apply pushLiteral_past_end
  rw [afterLiterals_to_end]
  change s.plen ≤ (BitVec.ofNat 128 (max s.ip.toNat s.plen)).toNat
  rw [BitVec.toNat_ofNat, Nat.mod_eq_of_lt] <;> omega

/-- Settles O18: the passes go through the literals at `ip`; the first that finds the program at its end, and the first that
finds `P` full, raise. -/
theorem pushInRecitalPushesItsLiterals : Obligations.PushInRecitalPushesItsLiterals := by
  intro v s hp hs
  rw [exec_push_recital v hp]
  have hstart := afterLiterals_zero s
  refine ⟨fun hv => by rw [hv]; rfl, fun hle hroom => finish_eq_next.mpr ?_, fun hv hlt hroom => finish_eq_fault.mpr ?_,
    fun m hcap hm hlt => finish_eq_fault.mpr ?_⟩
  · exact (passesAlong_afterLiterals hs (by omega) hroom).completes hstart
  · rw [← afterLiterals_to_end]
    have hv0 : v.toNat ≠ 0 := BitVec.toNat_ne.mp hv
    exact (passesAlong_afterLiterals hs le_rfl hroom).raises hstart (by omega) (pushLiteral_afterLiterals_to_end hs)
  · exact (passesAlong_afterLiterals hs (by omega) (hasRoom_of_cap_eq hcap)).raises hstart hm
      (pushLiteral_afterLiterals_full hs hlt hcap)

end Sys2Proof.Machine
end

section
/-! SUPPORT. Arithmetic and logic in Recital: what one pass does on the stack it finds, the states that the passes of a repeated
instruction go through, and each operation of the ALU as the arithmetic its rule states (`42_arith_logic.md` R130 to R142). -/

namespace Sys2Proof.Machine

open Sys2Proof.Claims

/-! ## One pass -/

/-- A stack within its capacity has room again once a Word has left it. -/
theorem ne_length_of_withinCap {cap : Capacity} {S T : Stack} (h : withinCap cap S = true) (hT : T.length < S.length) :
    cap ≠ some T.length :=
  fun hc => absurd (withinCap_iff.mp h _ hc) (Nat.not_le.mpr hT)

section

variable {f : Word → Word → Word} {v : Imm} {s : State} {a b x : Word} {P : Stack}

theorem binaryPass_cons_cons (h : s.pstack = a :: b :: P) (hroom : s.config.pstackCap ≠ some P.length) :
    binaryPass f s = .ok (s.setPstack (f a b :: P)) :=
  binaryPass_eq_ok.mpr ⟨a, b, P, h, hroom, rfl⟩

/-- A pass that finds fewer than two Words loses them and raises (R142, `60_exceptions.md` R204). -/
theorem binaryPass_of_length_lt_two (h : s.pstack.length < 2) :
    binaryPass f s = .error (.stackUnderflow (s.setPstack [])) := by
  have hshort (a b : Word) (P : Stack) : s.pstack ≠ a :: b :: P := by
    intro hP
    simp [hP] at h
  cases hrun : binaryPass f s with
  | ok t =>
    obtain ⟨a, b, P, hP, -⟩ := binaryPass_eq_ok.mp hrun
    exact absurd hP (hshort a b P)
  | error e =>
    obtain ⟨-, rfl⟩ | ⟨a, b, P, hP, -⟩ := binaryPass_eq_error hrun
    · rfl
    · exact absurd hP (hshort a b P)

/-- With `var = 0` the deeper Word is the first operand (R141). -/
theorem zeroOrOperand_zero (f : Word → Word → Word) (s : State) :
    zeroOrOperand f 0 s = binaryPass (fun a b => f b a) s := rfl

theorem zeroOrOperand_of_ne_zero (hv : v ≠ 0) :
    zeroOrOperand f v s = popP s >>= fun p => pushP p.2 (f p.1 (BitVec.ofNat 128 v.toNat)) := by
  rw [zeroOrOperand, if_neg hv, zext_eq_ofNat]

theorem zeroOrOperand_cons (hv : v ≠ 0) (h : s.pstack = x :: P) (hroom : s.config.pstackCap ≠ some P.length) :
    zeroOrOperand f v s = .ok (s.setPstack (f x (BitVec.ofNat 128 v.toNat) :: P)) := by
  rw [zeroOrOperand_of_ne_zero hv, bind_eq_ok]
  exact ⟨(x, s.setPstack P), popP_eq_ok.mpr ⟨P, h, rfl⟩, pushP_eq_ok.mpr ⟨hroom, rfl⟩⟩

theorem zeroOrOperand_nil (hv : v ≠ 0) (h : s.pstack = []) : zeroOrOperand f v s = .error (.stackUnderflow s) := by
  rw [zeroOrOperand_of_ne_zero hv, bind_eq_error]
  exact .inl (popP_eq_error.mpr ⟨h, rfl⟩)

end

/-! ## The repeated two-operand instructions -/

/-- `s` after `k` passes have folded `k` Words of `P` into the top `a` (R119, R141). -/
def State.afterFolds (s : State) (f : Word → Word → Word) (a : Word) (P : Stack) (k : Nat) : State :=
  { s with pstack := (P.take k).foldl f a :: P.drop k }

section

variable {f : Word → Word → Word} {s : State} {a : Word} {P : Stack} {n : Nat}

theorem afterFolds_zero (f : Word → Word → Word) (h : s.pstack = a :: P) : s.afterFolds f a P 0 = s :=
  congrArg s.setPstack h.symm

theorem afterFolds_succ (f : Word → Word → Word) (s : State) (a : Word) {k : Nat} (hk : k < P.length) :
    s.afterFolds f a P (k + 1) =
      (s.afterFolds f a P k).setPstack (f ((P.take k).foldl f a) P[k] :: P.drop (k + 1)) := by
  rw [State.afterFolds, List.take_succ_eq_append_getElem hk, List.foldl_append]
  rfl

/-- While Words remain beneath the top, each pass folds the nearest of them into it; the two pops make room for the push. -/
theorem passesAlong_afterFolds (h : s.pstack = a :: P) (hcap : withinCap s.config.pstackCap s.pstack = true)
    (hn : n ≤ P.length) : PassesAlong (binaryPass f) n (s.afterFolds f a P) := by
  intro k hk
  have hkP : k < P.length := hk.trans_le hn
  rw [afterFolds_succ f s a hkP]
  apply binaryPass_cons_cons (congrArg _ (List.drop_eq_getElem_cons hkP))
  apply ne_length_of_withinCap hcap
  rw [h, List.length_drop, List.length_cons]
  omega

/-- With every Word folded into the top, the next pass pops it and finds no other. -/
theorem binaryPass_afterFolds_all (f : Word → Word → Word) (s : State) (a : Word) (P : Stack) :
    binaryPass f (s.afterFolds f a P P.length) = .error (.stackUnderflow { s with pstack := [] }) :=
  binaryPass_of_length_lt_two (by simp [State.afterFolds])

end

/-- The passes complete while Words remain beneath the top; the first after that, and the first on an empty `P`, raises. -/
theorem foldsIntoTop_of_exec {instr : Imm → Instr} {f : Word → Word → Word}
    (hexec : ∀ v {s}, s.phase = .recital → exec (instr v) s = finish (binaryRepeated f v s)) : FoldsIntoTop instr f := by
  intro v s hp hcap
  simp only [hexec v hp, finish_eq_next, finish_eq_fault]
  refine ⟨fun hv => by rw [hv]; rfl, fun a P hP hle => ?_, fun hv hle => ?_⟩
  · exact (passesAlong_afterFolds hP hcap hle).completes (afterFolds_zero f hP)
  · cases hP : s.pstack with
    | nil =>
      have hpass : binaryPass f s = .error (.stackUnderflow { s with pstack := [] }) :=
        binaryPass_of_length_lt_two (by simp [hP])
      have hnone : PassesAlong (binaryPass f) 0 fun _ => s := fun k hk => absurd hk k.not_lt_zero
      exact hnone.raises rfl (Nat.pos_of_ne_zero (BitVec.toNat_ne.mp hv)) hpass
    | cons a P =>
      rw [hP] at hle
      exact (passesAlong_afterFolds hP hcap le_rfl).raises (afterFolds_zero f hP) hle (binaryPass_afterFolds_all f s a P)

/-! ## The instructions with an operand from the stack or from `var` -/

/-- Every operand popped leaves room for the one push, so what is missing is the only thing that can go wrong. -/
theorem takesOperandFromStackOrVar_of_exec {instr : Imm → Instr} {f : Word → Word → Word}
    (hexec : ∀ v {s}, s.phase = .recital → exec (instr v) s = finish (zeroOrOperand f v s)) :
    TakesOperandFromStackOrVar instr f := by
  intro v s hp hcap
  simp only [hexec v hp, finish_eq_next, finish_eq_fault]
  refine ⟨?_, ?_, fun hv x P hP => ?_, zeroOrOperand_nil⟩
  · rintro rfl a b P hP
    rw [zeroOrOperand_zero]
    exact binaryPass_cons_cons hP (ne_length_of_withinCap hcap (by simp [hP]))
  · rintro rfl hlt
    rw [zeroOrOperand_zero]
    exact binaryPass_of_length_lt_two hlt
  · exact zeroOrOperand_cons hv hP (ne_length_of_withinCap hcap (by simp [hP]))

/-! ## The ALU as arithmetic -/

theorem saturate_eq_ofNat_min (n : Nat) : saturate n = BitVec.ofNat 128 (min n (2 ^ 128 - 1)) := by
  unfold saturate
  split
  · next h => rw [min_eq_right (by omega)]; rfl
  · next h => rw [min_eq_left (by omega)]; rfl

theorem satAdd_eq : satAdd = fun a b => BitVec.ofNat 128 (min (a.toNat + b.toNat) (2 ^ 128 - 1)) :=
  funext₂ fun _ _ => saturate_eq_ofNat_min _

theorem satMul_eq : satMul = fun a b => BitVec.ofNat 128 (min (a.toNat * b.toNat) (2 ^ 128 - 1)) :=
  funext₂ fun _ _ => saturate_eq_ofNat_min _

/-- A difference of Words that does not go below 0 is exact. -/
theorem sub_eq_ofNat {a b : Word} (h : b.toNat ≤ a.toNat) : a - b = BitVec.ofNat 128 (a.toNat - b.toNat) := by
  bv_omega

theorem absDiff_eq : absDiff = fun a b =>
    BitVec.ofNat 128 (if b.toNat ≤ a.toNat then a.toNat - b.toNat else b.toNat - a.toNat) := by
  funext a b
  by_cases h : b.toNat ≤ a.toNat
  · rw [absDiff, if_pos (BitVec.le_def.mpr h), if_pos h, sub_eq_ofNat h]
  · rw [absDiff, if_neg (mt BitVec.le_def.mp h), if_neg h, sub_eq_ofNat (Nat.le_of_not_le h)]

theorem divide_eq : divide = fun b a =>
    BitVec.ofNat 128 (if a.toNat = 0 then 2 ^ 128 - 1 else b.toNat / a.toNat) := by
  funext b a
  by_cases h : a = 0
  · rw [h]; rfl
  · have ha : a.toNat ≠ 0 := BitVec.toNat_ne.mp h
    rw [divide, if_neg h, if_neg ha, BitVec.udiv_def]

theorem remainder_eq : remainder = fun b a =>
    BitVec.ofNat 128 (if a.toNat = 0 then 2 ^ 128 - 1 else b.toNat - a.toNat * (b.toNat / a.toNat)) := by
  funext b a
  by_cases h : a = 0
  · rw [h]; rfl
  · have ha : a.toNat ≠ 0 := BitVec.toNat_ne.mp h
    rw [remainder, if_neg h, if_neg ha, ← Nat.mod_eq_sub_mul_div, BitVec.umod_def]

theorem shiftLeft_eq : shiftLeft = fun v n =>
    if n.toNat < 128 then BitVec.ofNat 128 (v.toNat * 2 ^ n.toNat) else Config.shiftWide .shl v n := by
  funext v n
  rw [shiftLeft, ← Nat.shiftLeft_eq]
  rfl

theorem shiftRight_eq : shiftRight = fun v n =>
    if n.toNat < 128 then BitVec.ofNat 128 (v.toNat / 2 ^ n.toNat) else Config.shiftWide .shr v n := by
  funext v n
  rw [shiftRight, ← Nat.shiftRight_eq_div_pow, ← BitVec.toNat_ushiftRight, BitVec.ofNat_toNat, BitVec.setWidth_eq]

/-! ## The obligations -/

/-- Settles O21: saturation of the sum is the minimum with `MAXW`. -/
theorem addSaturates : Obligations.AddSaturates := by
  unfold Obligations.AddSaturates
  rw [← satAdd_eq]
  exact foldsIntoTop_of_exec fun v => exec_add_recital v

/-- Settles O22: the model's difference of Words is exact, since the larger comes first. -/
theorem difIsAbsoluteDifference : Obligations.DifIsAbsoluteDifference := by
  unfold Obligations.DifIsAbsoluteDifference
  rw [← absDiff_eq]
  exact foldsIntoTop_of_exec fun v => exec_dif_recital v

/-- Settles O23: saturation of the product is the minimum with `MAXW`. -/
theorem mulSaturates : Obligations.MulSaturates := by
  unfold Obligations.MulSaturates
  rw [← satMul_eq]
  exact foldsIntoTop_of_exec fun v => exec_mul_recital v

/-- Settles O24: the three fold with the same bitwise operation. -/
theorem andOrXorAreBitwise : Obligations.AndOrXorAreBitwise :=
  ⟨foldsIntoTop_of_exec fun v => exec_and_recital v, foldsIntoTop_of_exec fun v => exec_or_recital v,
    foldsIntoTop_of_exec fun v => exec_xor_recital v⟩

/-- Settles O25: division of Words by a Word other than 0 is division of naturals. -/
theorem divFloorsOrSaturates : Obligations.DivFloorsOrSaturates := by
  unfold Obligations.DivFloorsOrSaturates
  rw [← divide_eq]
  exact takesOperandFromStackOrVar_of_exec fun v => exec_div_recital v

/-- Settles O26: the remainder of naturals is what the quotient leaves. -/
theorem remIsOrdinaryRemainder : Obligations.RemIsOrdinaryRemainder := by
  unfold Obligations.RemIsOrdinaryRemainder
  rw [← remainder_eq]
  exact takesOperandFromStackOrVar_of_exec fun v => exec_rem_recital v

/-- Settles O27: a shift left below 128 is a product modulo 2^128. -/
theorem shlDropsHighBits : Obligations.ShlDropsHighBits := by
  unfold Obligations.ShlDropsHighBits
  rw [← shiftLeft_eq]
  exact takesOperandFromStackOrVar_of_exec fun v => exec_shl_recital v

/-- Settles O28: a shift right below 128 is a quotient. -/
theorem shrFillsWithZeros : Obligations.ShrFillsWithZeros := by
  unfold Obligations.ShrFillsWithZeros
  rw [← shiftRight_eq]
  exact takesOperandFromStackOrVar_of_exec fun v => exec_shr_recital v

end Sys2Proof.Machine
end

section
/-! SUPPORT. Compare and call in Recital: what `do_call` answers for every index, what the compare passes leave on `P` and in the
flag, and the branch made of them (`43_branch.md` R150 to R155, `44_control.md` R161). -/

namespace Sys2Proof.Machine

open Sys2Proof.Claims

/-! ## The call -/

section

variable {i : Imm} {s : State} {target : Word}

theorem called_eq_enterFunction (s : State) (r target : Word) : called s r target = s.enterFunction r target := by
  unfold called State.enterFunction callMarker
  cases s.config.callMark <;> rfl

/-- An index past the function table is `BadCall` before any push (R161). -/
theorem doCall_of_index_out (h : s.fstack.length ≤ i.toNat) : doCall i s = .error (.badCall s) := by
  rw [doCall, stackIndex_eq_none.mpr h]
  rfl

/-- A target past the end of the program is `BadCall` before any push (R161). -/
theorem doCall_of_target_out (h : stackIndex s.fstack i.toNat = some target) (hle : s.plen ≤ target.toNat) :
    doCall i s = .error (.badCall s) := by
  rw [doCall, h]
  exact if_pos hle

/-- With a target in the program, only the two pushes can raise. -/
theorem doCall_of_target (h : stackIndex s.fstack i.toNat = some target) (hlt : target.toNat < s.plen) :
    doCall i s = pushC s s.ip >>= fun u => pushC u (callMarker u.config s.cstack.length) >>= fun u => .ok (u.setIp target) := by
  rw [doCall, h]
  exact if_neg (Nat.not_le.mpr hlt)

theorem doCall_of_room (h : stackIndex s.fstack i.toNat = some target) (hlt : target.toNat < s.plen)
    (hroom : hasRoom s.config.cstackCap s.cstack 2 = true) : doCall i s = .ok (called s s.ip target) := by
  rw [called_eq_enterFunction]
  exact doCall_eq_ok.mpr ⟨target, h, hlt, ne_length_add_of_hasRoom (k := 0) hroom two_pos,
    ne_length_add_of_hasRoom hroom one_lt_two, rfl⟩

theorem doCall_of_full (h : stackIndex s.fstack i.toNat = some target) (hlt : target.toNat < s.plen)
    (hfull : s.config.cstackCap = some s.cstack.length) : doCall i s = .error (.stackOverflow s) := by
  rw [doCall_of_target h hlt]
  exact bind_eq_error.mpr (.inl (pushC_eq_error.mpr ⟨hfull, rfl⟩))

/-- With one free place the return offset is pushed and stays (`60_exceptions.md` R204). -/
theorem doCall_of_one_free (h : stackIndex s.fstack i.toNat = some target) (hlt : target.toNat < s.plen)
    (hone : s.config.cstackCap = some (s.cstack.length + 1)) :
    doCall i s = .error (.stackOverflow { s with cstack := s.ip :: s.cstack }) := by
  have hfirst : pushC s s.ip = .ok (s.setCstack (s.ip :: s.cstack)) := pushC_eq_ok.mpr ⟨by simp [hone], rfl⟩
  rw [doCall_of_target h hlt]
  exact bind_eq_error.mpr (.inr ⟨_, hfirst, bind_eq_error.mpr (.inl (pushC_eq_error.mpr ⟨hone, rfl⟩))⟩)

/-- `do_call` meets its specification, whichever instruction makes the call. -/
theorem callsFunction_doCall (i : Imm) (s : State) : CallsFunction i s (finish (doCall i s)) := by
  simp only [CallsFunction, finish_eq_next, finish_eq_fault]
  exact ⟨doCall_of_index_out, fun _ h =>
    ⟨doCall_of_target_out h, doCall_of_room h, doCall_of_full h, doCall_of_one_free h⟩⟩

end

/-! ## The compare passes -/

section

variable {cond : Word → Word → Bool} {flag : Bool} {n : Nat} {v : Imm} {s : State} {a b : Word} {P : Stack}

theorem comparePass_cons_cons (h : s.pstack = a :: b :: P) (hcap : withinCap s.config.pstackCap s.pstack = true) :
    comparePass cond flag s = .ok (flag || cond a b, s.setPstack (a :: P)) :=
  comparePass_eq_ok.mpr ⟨a, b, P, h, ne_length_of_withinCap hcap (by simp [h]), rfl, rfl⟩

/-- A pass that finds fewer than two Words loses them and raises (R155, `60_exceptions.md` R204). -/
theorem comparePass_of_length_lt_two (h : s.pstack.length < 2) :
    comparePass cond flag s = .error (.stackUnderflow (s.setPstack [])) := by
  match hP : s.pstack with
  | [] => exact bind_eq_error.mpr (.inl (popP_eq_error.mpr ⟨hP, by rw [← hP]; rfl⟩))
  | [a] =>
    have hlast : popP (s.setPstack []) = .error (.stackUnderflow (s.setPstack [])) := popP_eq_error.mpr ⟨rfl, rfl⟩
    exact bind_eq_error.mpr (.inr ⟨(a, _), popP_eq_ok.mpr ⟨[], hP, rfl⟩, bind_eq_error.mpr (.inl hlast)⟩)
  | _ :: _ :: _ => simp [hP] at h

theorem comparePasses_succ (cond : Word → Word → Bool) (n : Nat) (flag : Bool) (s : State) :
    comparePasses cond (n + 1) flag s = comparePass cond flag s >>= fun p => comparePasses cond n p.1 p.2 := rfl

theorem comparePasses_succ_cons_cons (h : s.pstack = a :: b :: P) (hcap : withinCap s.config.pstackCap s.pstack = true) :
    comparePasses cond (n + 1) flag s = comparePasses cond n (flag || cond a b) (s.setPstack (a :: P)) := by
  rw [comparePasses_succ, comparePass_cons_cons h hcap]
  rfl

/-- A pass leaves one Word fewer on the program stack, so it stays within its capacity. -/
theorem withinCap_cons_of_cons_cons (h : s.pstack = a :: b :: P) (hcap : withinCap s.config.pstackCap s.pstack = true) :
    withinCap s.config.pstackCap (a :: P) = true :=
  KeepsCap.of_length_le (by simp [h]) hcap

/-- With `n` Words beneath the top, `n` passes drop them and set the flag if the top meets the condition with any (R150). -/
theorem comparePasses_cons (h : s.pstack = a :: P) (hcap : withinCap s.config.pstackCap s.pstack = true)
    (hn : n ≤ P.length) :
    comparePasses cond n flag s = .ok (flag || (P.take n).any (cond a), s.setPstack (a :: P.drop n)) := by
  induction n generalizing flag s P with
  | zero =>
    have hs : s.setPstack (a :: P) = s := congrArg s.setPstack h.symm
    simp [comparePasses, hs]
  | succ n ih =>
    cases P with
    | nil => exact absurd hn n.not_succ_le_zero
    | cons b P =>
      have hcap' := withinCap_cons_of_cons_cons h hcap
      rw [comparePasses_succ_cons_cons h hcap, ih rfl hcap' (Nat.le_of_succ_le_succ hn), Bool.or_assoc]
      rfl

/-- With no Word left for the last pop, one of the passes, if there are any, already runs short (R155). -/
theorem comparePasses_succ_of_length_le (hlen : s.pstack.length ≤ n + 1)
    (hcap : withinCap s.config.pstackCap s.pstack = true) :
    comparePasses cond (n + 1) flag s = .error (.stackUnderflow (s.setPstack [])) := by
  induction n generalizing flag s with
  | zero => exact bind_eq_error.mpr (.inl (comparePass_of_length_lt_two (Nat.lt_succ_of_le hlen)))
  | succ n ih =>
    match hP : s.pstack with
    | [] | [_] => exact bind_eq_error.mpr (.inl (comparePass_of_length_lt_two (by simp [hP])))
    | a :: b :: P =>
      rw [hP] at hlen
      have hcap' := withinCap_cons_of_cons_cons hP hcap
      rw [comparePasses_succ_cons_cons hP hcap]
      exact ih (Nat.le_of_succ_le_succ hlen) hcap'

/-! ## The branch -/

/-- With `var + 1` Words on `P`, all of them leave, and the call is made from the offset after the next Word (R150). -/
theorem branch_cons (h : s.pstack = a :: P) (hcap : withinCap s.config.pstackCap s.pstack = true)
    (hn : v.toNat ≤ P.length) :
    branch cond v s = if (P.take v.toNat).any (cond a)
      then doCall v { s with pstack := P.drop v.toNat, ip := s.ip + 1 }
      else .ok { s with pstack := P.drop v.toNat } := by
  rw [branch, comparePasses_cons h hcap hn, Bool.false_or]
  rfl

theorem branch_of_length_le (hlen : s.pstack.length ≤ v.toNat) (hcap : withinCap s.config.pstackCap s.pstack = true) :
    branch cond v s = .error (.stackUnderflow { s with pstack := [] }) := by
  unfold branch
  cases hv : v.toNat with
  | zero =>
    have hnil : s.pstack = [] := List.eq_nil_of_length_eq_zero (Nat.le_zero.mp (hv ▸ hlen))
    rw [← hnil]
    exact bind_eq_error.mpr (.inr ⟨_, rfl, bind_eq_error.mpr (.inl (popP_eq_error.mpr ⟨hnil, rfl⟩))⟩)
  | succ n => exact bind_eq_error.mpr (.inl (comparePasses_succ_of_length_le (hv ▸ hlen) hcap))

end

/-- An instruction that branches on `cond` calls exactly when the condition that `cond` decides holds of some pair. -/
theorem callsWhenAnyPair_of_exec {instr : Imm → Instr} {cond : Word → Word → Bool} {p : Word → Word → Prop}
    (hexec : ∀ v {s}, s.phase = .recital → exec (instr v) s = finish (branch cond v s))
    (hcond : ∀ a b, cond a b = true ↔ p a b) : CallsWhenAnyPair instr p := by
  intro v s hp hcap
  simp only [hexec v hp, ← hcond]
  refine ⟨fun a P hP hle => ⟨fun hnone => ?_, fun hsome => ?_⟩, fun hlen => ?_⟩
  · rw [branch_cons hP hcap hle, List.any_eq_false.mpr hnone]
    rfl
  · rw [branch_cons hP hcap hle, List.any_eq_true.mpr hsome]
    exact callsFunction_doCall v _
  · rw [branch_of_length_le hlen hcap, finish_error]

/-! ## The obligations -/

/-- Settles O29: the flag of `Beq` is set by a pair of different Words. -/
theorem beqCallsOnUnequalPair : Obligations.BeqCallsOnUnequalPair :=
  callsWhenAnyPair_of_exec (fun v => exec_beq_recital v) fun _ _ => decide_eq_true_iff

/-- Settles O30: the flag of `Bne` is set by a pair of equal Words. -/
theorem bneCallsOnEqualPair : Obligations.BneCallsOnEqualPair :=
  callsWhenAnyPair_of_exec (fun v => exec_bne_recital v) fun _ _ => decide_eq_true_iff

/-- Settles O31: the flags of `Bgt` and `Blt` are set by the same pairs. -/
theorem bgtAndBltCallOnTopAtMost : Obligations.BgtAndBltCallOnTopAtMost :=
  ⟨callsWhenAnyPair_of_exec (fun v => exec_bgt_recital v) fun _ _ => decide_eq_true_iff,
    callsWhenAnyPair_of_exec (fun v => exec_blt_recital v) fun _ _ => decide_eq_true_iff⟩

end Sys2Proof.Machine
end

section
/-! SUPPORT. Control: what the pops and pushes of `Ret`, `Loop` and `Iter` in Recital answer for every length of the call
stack, and what `Fun`, `Call` and `Exe` do (`44_control.md` R160 to R167). -/

namespace Sys2Proof.Machine

open Sys2Proof.Claims

section

variable {s : State} {v : Imm} {c a marker target w : Word} {C : Stack}

/-! ## Pops of the call stack -/

theorem popC_cons (h : s.cstack = w :: C) : popC s = .ok (w, s.setCstack C) :=
  popC_eq_ok.mpr ⟨C, h, rfl⟩

theorem popC_nil (h : s.cstack = []) : popC s = .error (.stackUnderflow s) :=
  popC_eq_error.mpr ⟨h, rfl⟩

/-! ## `Ret` -/

theorem returnFromCall_cons_cons (h : s.cstack = marker :: target :: C) :
    returnFromCall s = .ok { s with ebp := marker, ip := target, cstack := C } := by
  rw [returnFromCall, popC_cons h]
  rfl

/-- With one Word on `C`, the base pointer is written before the second pop raises (R163). -/
theorem returnFromCall_singleton (h : s.cstack = [marker]) :
    returnFromCall s = .error (.stackUnderflow { s with ebp := marker, cstack := [] }) := by
  rw [returnFromCall, popC_cons h]
  rfl

theorem returnFromCall_nil (h : s.cstack = []) : returnFromCall s = .error (.stackUnderflow s) := by
  rw [returnFromCall, popC_nil h]
  rfl

/-! ## `Loop` -/

theorem enterLoop_of_room (hroom : hasRoom s.config.cstackCap s.cstack 2 = true) :
    enterLoop v s = .ok (s.setCstack (zext v :: s.ip :: s.cstack)) := by
  have hfirst : pushC s s.ip = .ok (s.setCstack (s.ip :: s.cstack)) :=
    pushC_eq_ok.mpr ⟨ne_length_add_of_hasRoom (k := 0) hroom two_pos, rfl⟩
  exact bind_eq_ok.mpr ⟨_, hfirst, pushC_eq_ok.mpr ⟨ne_length_add_of_hasRoom hroom one_lt_two, rfl⟩⟩

theorem enterLoop_of_full (hfull : s.config.cstackCap = some s.cstack.length) :
    enterLoop v s = .error (.stackOverflow s) :=
  bind_eq_error.mpr (.inl (pushC_eq_error.mpr ⟨hfull, rfl⟩))

/-- With one free place the loop's address is pushed and stays (`60_exceptions.md` R204). -/
theorem enterLoop_of_one_free (hone : s.config.cstackCap = some (s.cstack.length + 1)) :
    enterLoop v s = .error (.stackOverflow (s.setCstack (s.ip :: s.cstack))) := by
  have hfirst : pushC s s.ip = .ok (s.setCstack (s.ip :: s.cstack)) := pushC_eq_ok.mpr ⟨by simp [hone], rfl⟩
  exact bind_eq_error.mpr (.inr ⟨_, hfirst, pushC_eq_error.mpr ⟨hone, rfl⟩⟩)

/-! ## `Iter` -/

/-- The decrement of the counter is subtraction of natural numbers, which stops at 0 (R165). -/
theorem toNat_satDec (c : Word) : (satDec c).toNat = c.toNat - 1 := by
  unfold satDec
  split
  · next h => simp [h]
  · bv_omega

theorem satDec_eq_ofNat (c : Word) : satDec c = BitVec.ofNat 128 (c.toNat - 1) := by
  rw [← toNat_satDec, BitVec.ofNat_toNat, BitVec.setWidth_eq]

theorem satDec_eq_zero_iff : satDec c = 0 ↔ c.toNat ≤ 1 := by
  rw [← BitVec.toNat_inj, toNat_satDec]
  exact Nat.sub_eq_zero_iff_le

/-- With both Words of the pair on `C`, only the decremented counter decides between dropping and keeping it. -/
theorem iterate_cons_cons (h : s.cstack = c :: a :: C) :
    iterate s = if satDec c ≠ 0
      then pushC (s.setCstack C) a >>= fun u => pushC u (satDec c) >>= fun u =>
        .ok (if u.config.iterRedirect then u.setIp a else u)
      else .ok (s.setCstack C) := by
  rw [iterate, popC_cons h]
  rfl

theorem iterate_of_le_one (h : s.cstack = c :: a :: C) (hc : c.toNat ≤ 1) : iterate s = .ok (s.setCstack C) := by
  rw [iterate_cons_cons h]
  exact if_neg (not_not.mpr (satDec_eq_zero_iff.mpr hc))

/-- A counter of at least 2 goes back decremented, and there is room for the pair because it has just left (R165). -/
theorem iterate_of_two_le (h : s.cstack = c :: a :: C) (hc : 2 ≤ c.toNat)
    (hcap : withinCap s.config.cstackCap s.cstack = true) :
    iterate s = .ok { s with cstack := satDec c :: a :: C, ip := if s.config.iterRedirect = true then a else s.ip } := by
  have hne : satDec c ≠ 0 := satDec_eq_zero_iff.not.mpr (Nat.not_le.mpr hc)
  have haddress : pushC (s.setCstack C) a = .ok (s.setCstack (a :: C)) :=
    pushC_eq_ok.mpr ⟨ne_length_of_withinCap hcap (by simp [h]), rfl⟩
  have hcounter : pushC (s.setCstack (a :: C)) (satDec c) = .ok (s.setCstack (satDec c :: a :: C)) :=
    pushC_eq_ok.mpr ⟨ne_length_of_withinCap (T := a :: C) hcap (by simp [h]), rfl⟩
  rw [iterate_cons_cons h, if_pos hne]
  refine bind_eq_ok.mpr ⟨_, haddress, bind_eq_ok.mpr ⟨_, hcounter, ?_⟩⟩
  cases hr : s.config.iterRedirect with
  | false => exact congrArg Except.ok (if_neg (by simp [hr]))
  | true => exact congrArg Except.ok (if_pos hr)

/-- An `Iter` that finds fewer than two Words on `C` loses them and raises (R165, `60_exceptions.md` R204). -/
theorem iterate_of_length_lt_two (h : s.cstack.length < 2) :
    iterate s = .error (.stackUnderflow (s.setCstack [])) := by
  match hC : s.cstack with
  | [] =>
    have hs : s.setCstack [] = s := congrArg s.setCstack hC.symm
    rw [iterate, popC_nil hC, hs]
    rfl
  | [c] =>
    rw [iterate, popC_cons hC]
    rfl
  | _ :: _ :: _ => simp [hC] at h

/-! ## `Exe` -/

/-- `Exe` in Recital writes the phase the machine is in already, so it changes nothing (R167). -/
theorem exec_exe_ends (v : Imm) (hp : s.phase = .recital) : exec (.exe v) s = .fault (.endReached s) := by
  have hs : s.setPhase .recital = s := congrArg s.setPhase hp.symm
  rw [exec_exe_recital v hp, hs]
  rfl

end

/-! ## The obligations -/

/-- Settles O12: the push on `F` in Warmup, and nothing in Recital. -/
theorem funPushesOnlyInWarmup : Obligations.FunPushesOnlyInWarmup := by
  refine fun v s => ⟨fun hp hroom => ?_, exec_fun_recital v⟩
  rw [exec_fun_warmup v hp, finish_eq_next]
  exact pushF_eq_ok.mpr ⟨ne_length_of_hasRoom hroom, rfl⟩

/-- Settles O32: `Call` in Recital is `do_call`. -/
theorem callPushesReturnAndMarker : Obligations.CallPushesReturnAndMarker := by
  intro v s hp
  rw [exec_call_recital v hp]
  exact callsFunction_doCall v s

/-- Settles O33: two, one and no Words on `C`. -/
theorem retPopsMarkerThenTarget : Obligations.RetPopsMarkerThenTarget := by
  intro v s hp
  simp only [exec_ret_recital v hp, finish_eq_next, finish_eq_fault]
  exact ⟨fun _ _ _ => returnFromCall_cons_cons, fun _ => returnFromCall_singleton, returnFromCall_nil⟩

/-- Settles O34: two, no and one free places on `C`. -/
theorem loopPushesAddressAndCounter : Obligations.LoopPushesAddressAndCounter := by
  intro v s hp
  simp only [exec_loop_recital v hp, finish_eq_next, finish_eq_fault, ← zext_eq_ofNat]
  exact ⟨enterLoop_of_room, enterLoop_of_full, enterLoop_of_one_free⟩

/-- Settles O35: a counter that lasts, a counter that runs out, and a pair that is not there. -/
theorem iterCountsDown : Obligations.IterCountsDown := by
  intro v s hp hcap
  simp only [exec_iter_recital v hp, finish_eq_next, finish_eq_fault, ← satDec_eq_ofNat]
  exact ⟨fun _ _ _ h hc => iterate_of_two_le h hc hcap, fun _ _ _ => iterate_of_le_one, iterate_of_length_lt_two⟩

/-- Settles O36: `Exe` by itself, and in a step, which runs it at the advanced `ip`. -/
theorem exeInRecitalEndsTheRun : Obligations.ExeInRecitalEndsTheRun := by
  refine ⟨fun v s => exec_exe_ends v, fun s w v hp hw hd => ?_⟩
  rw [step_of_nextIs ⟨w, hw, hd⟩]
  exact exec_exe_ends (s := s.advance) v hp

end Sys2Proof.Machine
end

section
/-! SUPPORT. Memory and depth in Recital: what `Sto`, `Lod` and `Len` answer, by the stack and the address they find
(`45_memory_ops.md` R180 to R182). -/

namespace Sys2Proof.Machine

open Sys2Proof.Claims

section

variable {v : Imm} {s : State} {n : Nat} {e x : Word} {P : Stack}

/-! ## The stack engine on `P` -/

theorem popP_cons (h : s.pstack = x :: P) : popP s = .ok (x, s.setPstack P) :=
  popP_eq_ok.mpr ⟨P, h, rfl⟩

theorem pushP_of_room (hroom : hasRoom s.config.pstackCap s.pstack 1 = true) (x : Word) :
    pushP s x = .ok (s.setPstack (x :: s.pstack)) :=
  pushP_eq_ok.mpr ⟨ne_length_of_hasRoom hroom, rfl⟩

theorem pushP_of_full (hfull : s.config.pstackCap = some s.pstack.length) (x : Word) :
    pushP s x = .error (.stackOverflow s) :=
  pushP_eq_error.mpr ⟨hfull, rfl⟩

/-! ## `Sto` -/

/-- Once the Word is popped, `Sto` is the bounded write of that Word (R180). -/
theorem storeTop_cons (h : s.pstack = x :: P) :
    storeTop v s = memWrite (s.setPstack P) (effectiveAddress v) x := by
  rw [storeTop, popP_cons h]
  rfl

theorem storeTop_cons_of_lt (h : s.pstack = x :: P) (ha : (effectiveAddress v).toNat < memWords) :
    storeTop v s = .ok ((s.setPstack P).setMem (s.mem.write (effectiveAddress v).toNat x)) :=
  (storeTop_cons h).trans (memWrite_eq_ok.mpr ⟨ha, rfl⟩)

/-- Out of bounds the popped Word is lost (R180, `60_exceptions.md` R204). -/
theorem storeTop_cons_of_le (h : s.pstack = x :: P) (ha : memWords ≤ (effectiveAddress v).toNat) :
    storeTop v s = .error (.writeOob (s.setPstack P)) :=
  (storeTop_cons h).trans (memWrite_eq_error.mpr ⟨ha, rfl⟩)

/-- The pop comes before the bounds test, so on an empty `P` the address does not matter (R180). -/
theorem storeTop_nil (h : s.pstack = []) : storeTop v s = .error (.stackUnderflow s) :=
  bind_eq_error.mpr (.inl (popP_eq_error.mpr ⟨h, rfl⟩))

/-! ## `Lod` -/

/-- Within bounds `Lod` is the push of the Word at its address (R181). -/
theorem loadWord_of_lt (hv : v.toNat < memWords) : loadWord v s = pushP s (s.mem.read v.toNat) := by
  have hread : memRead s (effectiveAddress v) = .ok (s.mem.read v.toNat) := by
    rw [memRead_eq_ok, toNat_effectiveAddress]
    exact ⟨hv, rfl⟩
  rw [loadWord, hread]
  rfl

/-- The bounds test comes before the push, so out of bounds it does not matter what `P` holds (R181). -/
theorem loadWord_of_le (hv : memWords ≤ v.toNat) : loadWord v s = .error (.writeOob s) := by
  refine bind_eq_error.mpr (.inl (memRead_eq_error.mpr ⟨?_, rfl⟩))
  rwa [toNat_effectiveAddress]

/-! ## `Len` -/

theorem lenResult_of_le (h : e.toNat ≤ n) : lenResult n e = BitVec.ofNat 128 (n - e.toNat) := if_pos h

theorem lenResult_of_lt (h : n < e.toNat) : lenResult n e = Config.lenUnderflow n e := if_neg (Nat.not_le.mpr h)

theorem pushDepth_of_room (hroom : hasRoom s.config.pstackCap s.pstack 1 = true) :
    pushDepth s = .ok (s.setPstack (lenResult s.pstack.length s.ebp :: s.pstack)) :=
  pushP_of_room hroom _

end

/-! ## The obligations -/

/-- Settles O37: the pop, then the bounds test, then the write, which the laws of the data memory read back. -/
theorem stoWritesOneWord : Obligations.StoWritesOneWord := by
  intro v s hp hm
  simp only [exec_sto_recital v hp, finish_eq_next, finish_eq_fault]
  refine ⟨fun x P hP ha => ⟨s.mem.write (effectiveAddress v).toNat x, storeTop_cons_of_lt hP ha, Memory.wf_write hm ha x,
    ?_, fun a hne => ?_⟩, fun _ _ => storeTop_cons_of_le, storeTop_nil, toNat_effectiveAddress v⟩
  · exact (Memory.read_write hm _ _ x).trans (if_pos rfl)
  · exact (Memory.read_write hm _ a x).trans (if_neg hne)

/-- Settles O38: the bounds test, and within bounds a push with room or on a full `P`. -/
theorem lodPushesOneWord : Obligations.LodPushesOneWord := by
  intro v s hp
  simp only [exec_lod_recital v hp, finish_eq_next, finish_eq_fault]
  exact ⟨fun hv hroom => (loadWord_of_lt hv).trans (pushP_of_room hroom _),
    fun hv hfull => (loadWord_of_lt hv).trans (pushP_of_full hfull _), loadWord_of_le⟩

/-- Settles O40: the Word pushed is the difference or the free value, by `ebp` against the length; on a full `P` neither is
pushed. -/
theorem lenPushesDepthLessEbp : Obligations.LenPushesDepthLessEbp := by
  intro v s hp
  simp only [exec_len_recital v hp, finish_eq_next, finish_eq_fault]
  refine ⟨fun hroom hle => ?_, fun hroom hlt => ?_, fun hfull => pushP_of_full hfull _⟩
  · rw [pushDepth_of_room hroom, lenResult_of_le hle]
    rfl
  · rw [pushDepth_of_room hroom, lenResult_of_lt hlt]
    rfl

end Sys2Proof.Machine
end

section
/-! SUPPORT. What an instruction that raises may have done, said once as a relation between the state it ran in, the instruction
and the fault it answered; the frame of a raise, the causes of each result kind and the invariant of the machine follow by one
case split on it (`60_exceptions.md` R200 to R208). -/

namespace Sys2Proof.Machine

/-! ## Pops of the program stack that find it short -/

/-- The fault of an operation that takes Words off `P` and puts fewer or as many back: `P` ran empty; or, only where `P` held
more than its capacity, a push after the pops found it full (`60_exceptions.md` R201, `10_state.md` R31). -/
inductive RunsShort (s : State) : Fault → Prop
  | emptied : RunsShort s (.stackUnderflow (s.setPstack []))
  | overfull {P : Stack} (hover : ¬ withinCap s.config.pstackCap s.pstack = true) :
      RunsShort s (.stackOverflow (s.setPstack P))

namespace RunsShort

variable {s u : State} {f : Fault}

/-- What runs short after operations on `P` runs short from the state they began in. -/
theorem after (hu : ChangesPstackOnly s u) (h : RunsShort u f) : RunsShort s f := by
  obtain ⟨P, rfl, hP⟩ := hu
  cases h with
  | emptied => exact .emptied
  | overfull hover => exact .overfull fun hs => hover (hP hs)

theorem of_popP (h : popP s = .error f) : RunsShort s f := by
  obtain ⟨hP, rfl⟩ := popP_eq_error.mp h
  have hs : s.setPstack [] = s := congrArg s.setPstack hP.symm
  rw [← hs]
  exact .emptied

/-- A push on a stack that is shorter than it was can find it full only if it was over its capacity. -/
theorem of_pushP {P : Stack} {v : Word} (hP : P.length < s.pstack.length) (h : pushP (s.setPstack P) v = .error f) :
    RunsShort s f := by
  obtain ⟨hfull, rfl⟩ := pushP_eq_error.mp h
  exact .overfull fun hcap => ne_length_of_withinCap hcap hP hfull

/-- The two faults of a pass that pops two Words and pushes one. -/
theorem of_pass (h : (s.pstack.length < 2 ∧ f = .stackUnderflow (s.setPstack [])) ∨
    ∃ a b P, s.pstack = a :: b :: P ∧ s.config.pstackCap = some P.length ∧ f = .stackOverflow (s.setPstack P)) :
    RunsShort s f := by
  obtain ⟨-, rfl⟩ | ⟨a, b, P, hP, hfull, rfl⟩ := h
  · exact .emptied
  · exact .overfull fun hcap => ne_length_of_withinCap hcap (by simp [hP]) hfull

theorem of_discardTop (h : discardTop s = .error f) : RunsShort s f := by
  rcases bind_eq_error.mp h with h | ⟨_, -, h⟩
  · exact of_popP h
  · cases h

theorem of_binaryPass {op : Word → Word → Word} (h : binaryPass op s = .error f) : RunsShort s f :=
  of_pass (binaryPass_eq_error h)

theorem of_zeroOrOperand {op : Word → Word → Word} {v : Imm} (h : zeroOrOperand op v s = .error f) : RunsShort s f := by
  by_cases hv : v = 0
  · rw [hv, zeroOrOperand_zero] at h
    exact of_binaryPass h
  · rw [zeroOrOperand_of_ne_zero hv] at h
    rcases bind_eq_error.mp h with h | ⟨⟨x, u⟩, hu, h⟩
    · exact of_popP h
    · obtain ⟨P, hP, rfl⟩ := popP_eq_ok.mp hu
      exact of_pushP (by simp [hP]) h

/-- The pass of a repetition that runs short starts from a state in which only `P` has changed (R119). -/
theorem of_repeatTimes {body : State → Res State} (hok : ∀ s t, body s = .ok t → ChangesPstackOnly s t)
    (herr : ∀ s f, body s = .error f → RunsShort s f) {n : Nat} (h : repeatTimes body n s = .error f) : RunsShort s f := by
  obtain ⟨u, hu, h⟩ := repeatTimes_raises (p := ChangesPstackOnly s) (fun u v hu hv => hu.trans (hok u v hv)) (.refl s) h
  exact after hu (herr u f h)

theorem of_comparePasses {cond : Word → Word → Bool} {n : Nat} {flag : Bool} (h : comparePasses cond n flag s = .error f) :
    RunsShort s f := by
  induction n generalizing flag s with
  | zero => cases h
  | succ n ih =>
    rcases bind_eq_error.mp h with h | ⟨⟨flag', u⟩, hu, h⟩
    · exact of_pass (comparePass_eq_error h)
    · obtain ⟨a, b, P, hP, -, -, rfl⟩ := comparePass_eq_ok.mp hu
      exact after ⟨a :: P, rfl, .of_length_le (by simp [hP])⟩ (ih h)

end RunsShort

/-! ## The raising instruction as a relation -/

/-- The sixteen instructions that pop `P`, in the order of R201 (1). -/
abbrev popsP : List Opcode :=
  [.pop, .add, .dif, .mul, .div, .rem, .and, .or, .xor, .shl, .shr, .beq, .bne, .bgt, .blt, .sto]

theorem mem_popsP_of_isBranch : ∀ {op : Opcode}, op ∈ [Opcode.beq, .bne, .bgt, .blt] → op ∈ popsP := by decide

/-- `Raises s i f`: what instruction `i`, run in `s`, may have done when it answers the fault `f`, whose state keeps the effects
before the raise (`60_exceptions.md` R204). -/
inductive Raises (s : State) : Instr → Fault → Prop
  /-- A pop of an empty `P` (R201 (1)). -/
  | emptyP {i : Instr} (hp : s.phase = .recital) (hi : i.opcode ∈ popsP) : Raises s i (.stackUnderflow (s.setPstack []))
  /-- A push after the pops of one instruction, which finds `P` full only if it was over its capacity before. -/
  | overfullP {i : Instr} {P : Stack} (hp : s.phase = .recital) (hi : i.opcode ∈ popsP)
      (hover : ¬ withinCap s.config.pstackCap s.pstack = true) : Raises s i (.stackOverflow (s.setPstack P))
  /-- A push on a full `P` by an instruction that has popped nothing (`10_state.md` R31). -/
  | fullP {i : Instr} {P : Stack} {ip : Word} (hp : s.phase = .recital) (hi : i.opcode ∈ [Opcode.push, .dup, .lod, .len])
      (hP : KeepsCap s.config.pstackCap s.pstack P) (hfull : s.config.pstackCap = some P.length) :
      Raises s i (.stackOverflow ((s.setPstack P).setIp ip))
  /-- `Push` in Recital when the program ends before its literals do (R201 (4)). -/
  | endOfLiterals {v : Imm} {P : Stack} {ip : Word} (hp : s.phase = .recital)
      (hP : KeepsCap s.config.pstackCap s.pstack P) (hip : s.plen ≤ ip.toNat) :
      Raises s (.push v) (.stackUnderflow ((s.setPstack P).setIp ip))
  /-- `Sto` and `Lod` out of bounds; `Sto` has popped its Word (R180, R181). -/
  | outOfBounds {i : Instr} {P : Stack} (hp : s.phase = .recital) (hi : i.opcode ∈ [Opcode.sto, .lod])
      (ha : 1024 ≤ i.var.toNat) (hP : KeepsCap s.config.pstackCap s.pstack P) : Raises s i (.writeOob (s.setPstack P))
  /-- `do_call` without a target in the program; a branch has popped its Words and advanced `ip` (R161). -/
  | noTarget {i : Instr} {P : Stack} {ip : Word} (hp : s.phase = .recital)
      (hi : i.opcode ∈ [Opcode.beq, .bne, .bgt, .blt, .call]) (hP : KeepsCap s.config.pstackCap s.pstack P)
      (hout : ∀ target, stackIndex s.fstack i.var.toNat = some target → s.plen ≤ target.toNat) :
      Raises s i (.badCall ((s.setPstack P).setIp ip))
  /-- The first or the second push on a full `C`, in `do_call` and `Loop` (`10_state.md` R31). -/
  | fullC {i : Instr} {P C : Stack} {ip : Word} (hp : s.phase = .recital)
      (hi : i.opcode ∈ [Opcode.beq, .bne, .bgt, .blt, .call, .loop]) (hP : KeepsCap s.config.pstackCap s.pstack P)
      (hC : KeepsCap s.config.cstackCap s.cstack C) (hfull : s.config.cstackCap = some C.length) :
      Raises s i (.stackOverflow (((s.setPstack P).setCstack C).setIp ip))
  /-- `Iter` pushes back at most what it popped, and finds `C` full only if it was over its capacity before. -/
  | overfullC {v : Imm} {C : Stack} (hp : s.phase = .recital)
      (hover : ¬ withinCap s.config.cstackCap s.cstack = true) : Raises s (.iter v) (.stackOverflow (s.setCstack C))
  /-- `Ret` on a `C` of no or one Word; the second pop comes after the write of `ebp` (R163, R201 (2)). -/
  | emptyCOfRet {v : Imm} {ebp : Word} (hp : s.phase = .recital) :
      Raises s (.ret v) (.stackUnderflow ((s.setCstack []).setEbp ebp))
  /-- `Iter` on a `C` of no or one Word (R165, R201 (2)). -/
  | emptyCOfIter {v : Imm} (hp : s.phase = .recital) : Raises s (.iter v) (.stackUnderflow (s.setCstack []))
  /-- `Exe` in Warmup on an empty `F`, after the write of the phase (R107, R201 (3)). -/
  | emptyF {v : Imm} (hp : s.phase = .warmup) (hF : s.fstack = []) :
      Raises s (.exe v) (.stackUnderflow (s.setPhase .recital))
  /-- `Fun` in Warmup on a full `F` (`10_state.md` R31). -/
  | fullF {v : Imm} (hp : s.phase = .warmup) (hfull : s.config.fstackCap = some s.fstack.length) :
      Raises s (.fun_ v) (.stackOverflow s)
  /-- `Exe` in Recital (R167). -/
  | endReached {v : Imm} (hp : s.phase = .recital) : Raises s (.exe v) (.endReached s)

/-! ## Each operation that raises -/

section

variable {i : Instr} {s u : State} {f : Fault} {v : Imm} {w : Word}

theorem RunsShort.raises (h : RunsShort s f) (hp : s.phase = .recital) (hi : i.opcode ∈ popsP) : Raises s i f := by
  cases h with
  | emptied => exact .emptyP hp hi
  | overfull hover => exact .overfullP hp hi hover

/-- A push on `P` by an instruction that has popped nothing. -/
theorem raises_of_pushP (hp : s.phase = .recital) (hi : i.opcode ∈ [Opcode.push, .dup, .lod, .len])
    (hu : ReadsLiterals s u) (h : pushP u w = .error f) : Raises s i f := by
  obtain ⟨P, ip, rfl, hP, -⟩ := hu
  obtain ⟨hfull, rfl⟩ := pushP_eq_error.mp h
  exact .fullP hp hi hP hfull

theorem ChangesPstackOnly.readsLiterals (h : ChangesPstackOnly s u) : ReadsLiterals s u := by
  obtain ⟨P, rfl, hP⟩ := h
  exact ⟨P, s.ip, rfl, hP, id⟩

theorem ReadsLiterals.trans {t : State} (h : ReadsLiterals s t) (h' : ReadsLiterals t u) : ReadsLiterals s u := by
  obtain ⟨P, ip, rfl, hP, hip⟩ := h
  obtain ⟨Q, ip', rfl, hQ, hip'⟩ := h'
  exact ⟨Q, ip', rfl, hP.trans hQ, hip' ∘ hip⟩

/-- One pass of `Push` is a repetition of length 1. -/
theorem ReadsLiterals.of_pushLiteral (h : pushLiteral s = .ok u) : ReadsLiterals s u :=
  readsLiterals_of_repeatTimes (n := 1) (bind_eq_ok.mpr ⟨u, h, rfl⟩)

/-- The pass of `Push` that raises reads at the end of the program or pushes on a full `P` (R120). -/
theorem raises_of_push (hp : s.phase = .recital) (h : repeatTimes pushLiteral v.toNat s = .error f) :
    Raises s (.push v) f := by
  obtain ⟨u, hu, h⟩ := repeatTimes_raises (p := ReadsLiterals s) (fun _ _ hu ht => hu.trans (.of_pushLiteral ht))
    (ChangesPstackOnly.refl s).readsLiterals h
  unfold pushLiteral at h
  split at h
  · next hend =>
    cases h
    obtain ⟨P, ip, rfl, hP, -⟩ := hu
    exact .endOfLiterals hp hP (iFetch_eq_none.mp hend)
  · rcases bind_eq_error.mp h with h | ⟨_, -, h⟩
    · exact raises_of_pushP hp (by simp [Instr.opcode]) hu h
    · cases h

theorem raises_of_dup (hp : s.phase = .recital) (h : repeatTimes duplicateTop v.toNat s = .error f) :
    Raises s (.dup v) f := by
  obtain ⟨u, hu, h⟩ := repeatTimes_raises (p := ChangesPstackOnly s) (fun _ _ hu ht => hu.trans (.of_pushP ht)) (.refl s) h
  exact raises_of_pushP hp (by simp [Instr.opcode]) hu.readsLiterals h

theorem raises_of_storeTop (hp : s.phase = .recital) (h : storeTop v s = .error f) : Raises s (.sto v) f := by
  rcases bind_eq_error.mp h with h | ⟨⟨w, u⟩, hu, h⟩
  · exact (RunsShort.of_popP h).raises hp (by simp [Instr.opcode])
  · obtain ⟨P, rfl, hP⟩ := ChangesPstackOnly.of_popP hu
    obtain ⟨ha, rfl⟩ := memWrite_eq_error.mp h
    rw [toNat_effectiveAddress] at ha
    exact .outOfBounds hp (by simp [Instr.opcode]) ha hP

theorem raises_of_loadWord (hp : s.phase = .recital) (h : loadWord v s = .error f) : Raises s (.lod v) f := by
  rcases bind_eq_error.mp h with h | ⟨w, -, h⟩
  · obtain ⟨ha, rfl⟩ := memRead_eq_error.mp h
    rw [toNat_effectiveAddress] at ha
    exact .outOfBounds (P := s.pstack) hp (by simp [Instr.opcode]) ha (.of_length_le le_rfl)
  · exact raises_of_pushP hp (by simp [Instr.opcode]) (ChangesPstackOnly.refl s).readsLiterals h

/-- `do_call(var)` of a `Call` or a branch, in a state that differs from `s` in `P` and `ip` (R161). -/
theorem raises_of_doCall {P : Stack} {ip : Word} (hp : s.phase = .recital)
    (hi : i.opcode ∈ [Opcode.beq, .bne, .bgt, .blt, .call]) (hP : KeepsCap s.config.pstackCap s.pstack P)
    (h : doCall i.var ((s.setPstack P).setIp ip) = .error f) : Raises s i f := by
  have hpush : i.opcode ∈ [Opcode.beq, .bne, .bgt, .blt, .call, .loop] := List.mem_append_left [Opcode.loop] hi
  obtain ⟨rfl, hout⟩ | ⟨rfl, hfull⟩ | ⟨rfl, hfull⟩ := doCall_eq_error h
  · refine .noTarget hp hi hP fun target htarget => ?_
    obtain hlen | ⟨target', htarget', hle⟩ := hout
    · exact absurd (htarget.symm.trans (stackIndex_eq_none.mpr hlen)) (Option.some_ne_none _)
    · cases htarget.symm.trans htarget'
      exact hle
  · exact .fullC hp hpush hP (.of_length_le le_rfl) hfull
  · have hroom : s.config.cstackCap ≠ some s.cstack.length := fun hc => by simp [hc] at hfull
    exact .fullC hp hpush hP (.push ip hroom) hfull

/-- A branch raises in its pops, or in the call after them (`43_branch.md` R150, R155). -/
theorem raises_of_branch {cond : Word → Word → Bool} (hp : s.phase = .recital)
    (hi : i.opcode ∈ [Opcode.beq, .bne, .bgt, .blt]) (h : branch cond i.var s = .error f) : Raises s i f := by
  have hpops := mem_popsP_of_isBranch hi
  rcases bind_eq_error.mp h with h | ⟨⟨flag, u⟩, hu, h⟩
  · exact (RunsShort.of_comparePasses h).raises hp hpops
  have hu := ChangesPstackOnly.of_comparePasses hu
  rcases bind_eq_error.mp h with h | ⟨⟨w, u'⟩, hu', h⟩
  · exact (RunsShort.after hu (.of_popP h)).raises hp hpops
  obtain ⟨P, rfl, hP⟩ := hu.trans (.of_popP hu')
  dsimp only at h
  split at h
  · exact raises_of_doCall hp (List.mem_append_left [Opcode.call] hi) hP h
  · cases h

theorem raises_of_returnFromCall (hp : s.phase = .recital) (h : returnFromCall s = .error f) : Raises s (.ret v) f := by
  match hC : s.cstack with
  | [] =>
    cases (returnFromCall_nil hC).symm.trans h
    have hs : (s.setCstack []).setEbp s.ebp = s := congrArg s.setCstack hC.symm
    rw [← hs]
    exact .emptyCOfRet hp
  | [marker] =>
    cases (returnFromCall_singleton hC).symm.trans h
    exact .emptyCOfRet hp
  | marker :: target :: C => cases (returnFromCall_cons_cons hC).symm.trans h

theorem raises_of_enterLoop (hp : s.phase = .recital) (h : enterLoop v s = .error f) : Raises s (.loop v) f := by
  have hi : (Instr.loop v).opcode ∈ [Opcode.beq, .bne, .bgt, .blt, .call, .loop] := by simp [Instr.opcode]
  rcases bind_eq_error.mp h with h | ⟨u, hu, h⟩
  · obtain ⟨hfull, rfl⟩ := pushC_eq_error.mp h
    exact .fullC (P := s.pstack) (C := s.cstack) (ip := s.ip) hp hi (.of_length_le le_rfl) (.of_length_le le_rfl) hfull
  · obtain ⟨hroom, rfl⟩ := pushC_eq_ok.mp hu
    obtain ⟨hfull, rfl⟩ := pushC_eq_error.mp h
    exact .fullC (P := s.pstack) (ip := s.ip) hp hi (.of_length_le le_rfl) (.push s.ip hroom) hfull

/-- `Iter` runs out of Words on `C`; its pushes find `C` shorter than it was (R165). -/
theorem raises_of_iterate (hp : s.phase = .recital) (h : iterate s = .error f) : Raises s (.iter v) f := by
  match hC : s.cstack with
  | [] | [_] =>
    cases (iterate_of_length_lt_two (by simp [hC])).symm.trans h
    exact .emptyCOfIter hp
  | c :: a :: C =>
    have hlen : C.length + 1 < s.cstack.length := by simp [hC]
    rw [iterate_cons_cons hC] at h
    split at h
    · rcases bind_eq_error.mp h with h | ⟨u, hu, h⟩
      · obtain ⟨hfull, rfl⟩ := pushC_eq_error.mp h
        exact .overfullC hp fun hcap => ne_length_of_withinCap hcap (Nat.lt_of_succ_lt hlen) hfull
      · obtain ⟨-, rfl⟩ := pushC_eq_ok.mp hu
        rcases bind_eq_error.mp h with h | ⟨_, -, h⟩
        · obtain ⟨hfull, rfl⟩ := pushC_eq_error.mp h
          exact .overfullC hp fun hcap => ne_length_of_withinCap (T := a :: C) hcap hlen hfull
        · cases h
    · cases h

theorem raises_of_enterRecital (hp : s.phase = .warmup) (h : enterRecital s = .error f) : Raises s (.exe v) f := by
  cases hF : s.fstack with
  | nil =>
    cases (enterRecital_nil hF).symm.trans h
    exact .emptyF hp hF
  | cons target F => cases (enterRecital_cons hF).symm.trans h

/-! ## Every instruction that raises -/

theorem raises_of_exec_warmup (hp : s.phase = .warmup) (h : exec i s = .fault f) : Raises s i f := by
  cases i with
  | push v => cases (exec_push_warmup v hp).symm.trans h
  | fun_ v =>
    obtain ⟨hfull, rfl⟩ := pushF_eq_error.mp (finish_eq_fault.mp ((exec_fun_warmup v hp).symm.trans h))
    exact .fullF hp hfull
  | exe v => exact raises_of_enterRecital hp (finish_eq_fault.mp ((exec_exe_warmup v hp).symm.trans h))
  | _ => cases h.symm.trans (otherOpcodesIgnoredInWarmup _ s hp nofun nofun nofun)

theorem raises_of_exec_recital (hp : s.phase = .recital) (h : exec i s = .fault f) : Raises s i f := by
  cases i with
  | push v =>
    rw [exec_push_recital v hp, finish_eq_fault] at h
    exact raises_of_push hp h
  | pop v =>
    rw [exec_pop_recital v hp, finish_eq_fault] at h
    exact (RunsShort.of_repeatTimes (fun _ _ => .of_discardTop) (fun _ _ => .of_discardTop) h).raises hp
      (by simp [Instr.opcode])
  | dup v =>
    rw [exec_dup_recital v hp, finish_eq_fault] at h
    exact raises_of_dup hp h
  | add v | dif v | mul v | and v | or v | xor v =>
    simp only [exec_add_recital v hp, exec_dif_recital v hp, exec_mul_recital v hp, exec_and_recital v hp,
      exec_or_recital v hp, exec_xor_recital v hp, finish_eq_fault] at h
    exact (RunsShort.of_repeatTimes (fun _ _ => .of_binaryPass) (fun _ _ => .of_binaryPass) h).raises hp
      (by simp [Instr.opcode])
  | div v | rem v | shl v | shr v =>
    simp only [exec_div_recital v hp, exec_rem_recital v hp, exec_shl_recital v hp, exec_shr_recital v hp,
      finish_eq_fault] at h
    exact (RunsShort.of_zeroOrOperand h).raises hp (by simp [Instr.opcode])
  | beq v | bne v | bgt v | blt v =>
    simp only [exec_beq_recital v hp, exec_bne_recital v hp, exec_bgt_recital v hp, exec_blt_recital v hp,
      finish_eq_fault] at h
    exact raises_of_branch hp (by simp [Instr.opcode]) h
  | fun_ v => cases (exec_fun_recital v hp).symm.trans h
  | call v =>
    rw [exec_call_recital v hp, finish_eq_fault] at h
    exact raises_of_doCall (P := s.pstack) (ip := s.ip) hp (by simp [Instr.opcode]) (.of_length_le le_rfl) h
  | ret v =>
    rw [exec_ret_recital v hp, finish_eq_fault] at h
    exact raises_of_returnFromCall hp h
  | loop v =>
    rw [exec_loop_recital v hp, finish_eq_fault] at h
    exact raises_of_enterLoop hp h
  | iter v =>
    rw [exec_iter_recital v hp, finish_eq_fault] at h
    exact raises_of_iterate hp h
  | exe v =>
    cases (exec_exe_ends v hp).symm.trans h
    exact .endReached hp
  | sto v =>
    rw [exec_sto_recital v hp, finish_eq_fault] at h
    exact raises_of_storeTop hp h
  | lod v =>
    rw [exec_lod_recital v hp, finish_eq_fault] at h
    exact raises_of_loadWord hp h
  | len v =>
    rw [exec_len_recital v hp, finish_eq_fault] at h
    exact raises_of_pushP hp (by simp [Instr.opcode]) (ChangesPstackOnly.refl s).readsLiterals h

/-- Every instruction that raises did one of the things `Raises` lists. -/
theorem raises_of_exec (h : exec i s = .fault f) : Raises s i f := by
  cases hp : s.phase with
  | warmup => exact raises_of_exec_warmup hp h
  | recital => exact raises_of_exec_recital hp h

end

/-! ## What a raise keeps -/

namespace Raises

variable {i : Instr} {s : State} {f : Fault}

theorem imem_eq (h : Raises s i f) : f.left.imem = s.imem := by cases h <;> rfl

theorem config_eq (h : Raises s i f) : f.left.config = s.config := by cases h <;> rfl

theorem fstack_eq (h : Raises s i f) : f.left.fstack = s.fstack := by cases h <;> rfl

theorem mem_eq (h : Raises s i f) : f.left.mem = s.mem := by cases h <;> rfl

theorem phase_eq (h : Raises s i f) (hi : i.opcode ≠ .exe) : f.left.phase = s.phase := by
  cases h with
  | emptyF => exact absurd rfl hi
  | _ => rfl

theorem ebp_eq (h : Raises s i f) (hi : i.opcode ≠ .ret) : f.left.ebp = s.ebp := by
  cases h with
  | emptyCOfRet => exact absurd rfl hi
  | _ => rfl

theorem pstack_keepsCap (h : Raises s i f) : KeepsCap s.config.pstackCap s.pstack f.left.pstack := by
  cases h with
  | emptyP => exact .of_length_le (Nat.zero_le _)
  | overfullP _ _ hover => exact fun hcap => absurd hcap hover
  | fullP _ _ hP | endOfLiterals _ hP | outOfBounds _ _ _ hP | noTarget _ _ hP | fullC _ _ hP => exact hP
  | _ => exact .of_length_le le_rfl

theorem cstack_keepsCap (h : Raises s i f) : KeepsCap s.config.cstackCap s.cstack f.left.cstack := by
  cases h with
  | fullC _ _ _ hC => exact hC
  | overfullC _ hover => exact fun hcap => absurd hcap hover
  | emptyCOfRet | emptyCOfIter => exact .of_length_le (Nat.zero_le _)
  | _ => exact .of_length_le le_rfl

/-- A raise leaves every piece of the invariant as it was but the two stacks, which keep within their capacities. -/
theorem machineInv (h : Raises s i f) (hs : MachineInv s) : MachineInv f.left := by
  obtain ⟨⟨hP, hC, hF⟩, hprog, hmem, hfuns⟩ := hs
  simp only [MachineInv, StacksFit, ProgramFits, State.plen, MemoryCanonical, EntriesAreFuns, h.config_eq, h.imem_eq,
    h.fstack_eq, h.mem_eq, isFunWord_congr h.imem_eq h.config_eq]
  exact ⟨⟨h.pstack_keepsCap hP, h.cstack_keepsCap hC, hF⟩, hprog, hmem, hfuns⟩

end Raises

/-- A fetch or a decode that fails leaves the state as it was (R100). -/
theorem left_of_fetchInstr_error {s : State} {f : Fault} (h : fetchInstr s = .error f) : f.left = s := by
  obtain ⟨-, rfl⟩ | ⟨_, -, -, rfl⟩ := fetchInstr_eq_error.mp h <;> rfl

/-- Settles O46: a failed fetch changes nothing, and an instruction that raises keeps the invariant, which does not speak of
the advanced `ip`. -/
theorem raiseKeepsMachineInvariant : Obligations.RaiseKeepsMachineInvariant := by
  intro s f hs hstep
  obtain hfetch | ⟨i, -, hexec⟩ := step_eq_fault hstep
  · rwa [left_of_fetchInstr_error hfetch]
  · have hadvance : MachineInv s.advance := hs
    exact (raises_of_exec hexec).machineInv hadvance

/-- Settles O42, by the frame of each piece of state. -/
theorem raisedInstructionFrame : Obligations.RaisedInstructionFrame := by
  intro i s f hexec
  have h := raises_of_exec hexec
  exact ⟨h.imem_eq, h.config_eq, h.fstack_eq, h.mem_eq, h.phase_eq, h.ebp_eq⟩

/-! ## The causes of each result kind -/

/-- Settles O43: of the ways to raise, five are a `StackUnderflow`. -/
theorem causesOfStackUnderflow : Obligations.CausesOfStackUnderflow := by
  intro i s t hexec
  cases raises_of_exec hexec with
  | emptyP hp hi => exact .inl ⟨hp, rfl, hi⟩
  | emptyCOfRet hp | emptyCOfIter hp => exact .inr (.inl ⟨hp, rfl, by simp [Instr.opcode]⟩)
  | emptyF hp hF => exact .inr (.inr (.inl ⟨hp, hF, rfl⟩))
  | endOfLiterals hp _ hip => exact .inr (.inr (.inr ⟨hp, hip, rfl⟩))

namespace Raises

variable {i : Instr} {s : State} {f : Fault}

theorem endReached_cause (h : Raises s i f) (hk : f.kind = .endReached) : s.phase = .recital ∧ i.opcode = .exe := by
  cases h with
  | endReached hp => exact ⟨hp, rfl⟩
  | _ => cases hk

theorem writeOob_cause (h : Raises s i f) (hk : f.kind = .writeOob) :
    s.phase = .recital ∧ i.opcode ∈ [Opcode.sto, .lod] ∧ 1024 ≤ i.var.toNat := by
  cases h with
  | outOfBounds hp hi ha => exact ⟨hp, hi, ha⟩
  | _ => cases hk

theorem badCall_cause (h : Raises s i f) (hk : f.kind = .badCall) :
    s.phase = .recital ∧ i.opcode ∈ [Opcode.beq, .bne, .bgt, .blt, .call] ∧
      ∀ target, s.fstack.reverse[i.var.toNat]? = some target → s.plen ≤ target.toNat := by
  cases h with
  | noTarget hp hi _ hout => exact ⟨hp, hi, hout⟩
  | _ => cases hk

/-- A push after a pop cannot find a stack full that was within its capacity, so only the plain pushes are left. -/
theorem stackOverflow_cause (h : Raises s i f) (hk : f.kind = .stackOverflow) (hfit : StacksFit s) :
    (s.phase = .recital ∧ i.opcode ∈ [Opcode.push, .dup, .lod, .len] ∧
        s.config.pstackCap = some f.left.pstack.length) ∨
      (s.phase = .recital ∧ i.opcode ∈ [Opcode.beq, .bne, .bgt, .blt, .call, .loop] ∧
        s.config.cstackCap = some f.left.cstack.length) ∨
      (s.phase = .warmup ∧ i.opcode = .fun_ ∧ s.config.fstackCap = some f.left.fstack.length) := by
  obtain ⟨hP, hC, -⟩ := hfit
  cases h with
  | overfullP _ _ hover => exact absurd hP hover
  | overfullC _ hover => exact absurd hC hover
  | fullP hp hi _ hfull => exact .inl ⟨hp, hi, hfull⟩
  | fullC hp hi _ _ hfull => exact .inr (.inl ⟨hp, hi, hfull⟩)
  | fullF hp hfull => exact .inr (.inr ⟨hp, rfl, hfull⟩)
  | _ => cases hk

/-- `NoExec` and `IllegalOp` are the step cycle's, and `Ok` is no raise (R200). -/
theorem kind_ne (h : Raises s i f) : f.kind ≠ .noExec ∧ f.kind ≠ .illegalOp ∧ f.kind ≠ .ok := by
  cases h <;> simp [Fault.kind]

end Raises

/-- Settles O44, by the causes of each kind. -/
theorem causesOfOtherResultKinds : Obligations.CausesOfOtherResultKinds := by
  intro i s f hexec
  have h := raises_of_exec hexec
  exact ⟨h.endReached_cause, h.writeOob_cause, h.badCall_cause, h.stackOverflow_cause, h.kind_ne⟩

/-! ## The step as the host sees it -/

/-- Every step gives the host a result kind and a state (R200, R10). -/
theorem exists_hostStep_eq (s : State) : ∃ k u, hostStep s = some (k, u) := by
  obtain ⟨hnext, hfault⟩ := hostStep_of_step (s := s)
  obtain ⟨t, h⟩ | ⟨f, h⟩ := step_next_or_fault s
  · exact ⟨_, _, hnext t h⟩
  · exact ⟨_, _, hfault f h⟩

/-- A kind other than `Ok` is that of the fault the step raised, with the state it left. -/
theorem step_fault_of_hostStep {s t : State} {k : ResultKind} (h : hostStep s = some (k, t)) (hk : k ≠ .ok) :
    ∃ f, step s = .fault f ∧ f.kind = k ∧ f.left = t := by
  obtain ⟨hnext, hfault⟩ := hostStep_of_step (s := s)
  obtain ⟨u, hstep⟩ | ⟨f, hstep⟩ := step_next_or_fault s
  · cases (hnext u hstep).symm.trans h
    exact absurd rfl hk
  · cases (hfault f hstep).symm.trans h
    exact ⟨f, hstep, rfl, rfl⟩

/-- A raise of `NoExec` or `IllegalOp` is a fetch or a decode that failed: no instruction raises these kinds. -/
theorem left_of_step_fault {s : State} {f : Fault} (h : step s = .fault f)
    (hk : f.kind = .noExec ∨ f.kind = .illegalOp) : f.left = s := by
  obtain hfetch | ⟨i, -, hexec⟩ := step_eq_fault h
  · exact left_of_fetchInstr_error hfetch
  · obtain ⟨hno, hill, -⟩ := (raises_of_exec hexec).kind_ne
    exact absurd hk (not_or.mpr ⟨hno, hill⟩)

/-- Settles O55: such a step leaves the state it began in, so the next step is the same step. -/
theorem failedFetchRepeats : Obligations.FailedFetchRepeats := by
  intro s t h
  have hts : t = s := by
    obtain h | h := h
    · obtain ⟨f, hstep, hk, rfl⟩ := step_fault_of_hostStep h (by decide)
      exact left_of_step_fault hstep (.inl hk)
    · obtain ⟨f, hstep, hk, rfl⟩ := step_fault_of_hostStep h (by decide)
      exact left_of_step_fault hstep (.inr hk)
  exact ⟨hts, congrArg hostStep hts⟩

/-- Settles O8: no arm of exec refuses, and a step completes or raises. -/
theorem nothingIsRefused : Obligations.NothingIsRefused := by
  refine ⟨exec_ne_refused, fun s r h => ?_⟩
  obtain ⟨t, hstep⟩ | ⟨f, hstep⟩ := step_next_or_fault s <;> cases hstep.symm.trans h

/-- The status port shows the code of the kind that the step returned. -/
theorem hostStatus_eq (s : State) : hostStatus s = ((hostStep s).map Prod.fst).map resultCode :=
  (Option.map_map resultCode Prod.fst (hostStep s)).symm

/-- Settles O58: `RESULT_CODE` is injective (D18), and so is its application to the kind a step returns. -/
theorem statusTellsTheResultKind : Obligations.StatusTellsTheResultKind := by
  intro s t
  constructor
  · obtain ⟨k, u, h⟩ := exists_hostStep_eq s
    exact ⟨k, u, h, by rw [hostStatus_eq, h]; rfl⟩
  · rw [hostStatus_eq, hostStatus_eq]
    exact (Option.map_injective resultCode_injective).eq_iff

end Sys2Proof.Machine
end

section
/-! SUPPORT. The host operations: what reset, `read` and a launch answer, and how `steps(n)` and `run` follow the machine's
steps (`70_reset_and_hazards.md` R240 to R247). -/

namespace Sys2Proof.Machine

open Sys2Proof.Claims

/-! ## Reset -/

@[simp] theorem hostReset_ip (s : State) : (hostReset s).ip = 0 := rfl
@[simp] theorem hostReset_ebp (s : State) : (hostReset s).ebp = 0 := rfl
@[simp] theorem hostReset_phase (s : State) : (hostReset s).phase = .warmup := rfl
@[simp] theorem hostReset_pstack (s : State) : (hostReset s).pstack = [] := rfl
@[simp] theorem hostReset_cstack (s : State) : (hostReset s).cstack = [] := rfl
@[simp] theorem hostReset_fstack (s : State) : (hostReset s).fstack = [] := rfl
@[simp] theorem hostReset_imem (s : State) : (hostReset s).imem = [] := rfl
@[simp] theorem hostReset_mem (s : State) : (hostReset s).mem = State.reset.mem := rfl
@[simp] theorem hostReset_config (s : State) : (hostReset s).config = s.config := rfl

/-- Settles O57: field by field; the data memory is the one of the reset state, which O50 says reads 0. -/
theorem hostResetGivesEveryPieceItsResetValue : Obligations.HostResetGivesEveryPieceItsResetValue := by
  intro s
  obtain ⟨-, -, -, -, -, -, hmem, -, -⟩ := resetValues
  have hplen : (hostReset s).plen = 0 := by rw [State.plen, hostReset_imem, List.length_nil]
  exact ⟨hostReset_ip s, hostReset_ebp s, hostReset_phase s, hostReset_pstack s, hostReset_cstack s, hostReset_fstack s,
    hmem, hostReset_imem s, hplen, hostReset_config s⟩

/-! ## `read` and the launch -/

@[simp] theorem State.plen_setImem (s : State) (program : List Word) : (s.setImem program).plen = program.length := rfl

theorem hostRead_of_le {program : List Word} {s : State} (h : program.length ≤ s.config.imemCap) :
    hostRead program s = .next (s.setImem program) := if_pos h

theorem hostRead_of_lt {program : List Word} {s : State} (h : s.config.imemCap < program.length) :
    hostRead program s = .refused .programTooLong := if_neg (Nat.not_le.mpr h)

/-- Settles O52, by whether the program fits the program store. -/
theorem readInstallsTheProgramOnly : Obligations.ReadInstallsTheProgramOnly := fun program s =>
  ⟨fun h => ⟨hostRead_of_le h, s.plen_setImem program⟩, hostRead_of_lt⟩

/-- A `read` that is not refused found a program that fits, and installed it. -/
theorem hostRead_eq_next {program : List Word} {s t : State} (h : hostRead program s = .next t) :
    program.length ≤ s.config.imemCap ∧ t = s.setImem program := by
  obtain hlt | hle := Nat.lt_or_ge s.config.imemCap program.length
  · cases (hostRead_of_lt hlt).symm.trans h
  · cases (hostRead_of_le hle).symm.trans h
    exact ⟨hle, rfl⟩

/-- The program store of an admitted configuration holds at most 2^64 Words (D8). -/
theorem Config.imemCap_le {c : Config} (h : c.wf = true) : c.imemCap ≤ 2 ^ 64 := by
  simp only [Config.wf, Bool.and_eq_true, decide_eq_true_eq] at h
  obtain ⟨⟨⟨-, hcap⟩, -⟩, -⟩ := h
  exact hcap

theorem withinCap_nil (cap : Capacity) : withinCap cap [] = true := withinCap_iff.mpr fun k _ => Nat.zero_le k

/-- The state of a launch, whose stacks are empty and whose program fits, meets the machine's invariant. -/
theorem machineInv_launched {program : List Word} {s : State} (hwf : s.config.wf = true)
    (hfits : program.length ≤ s.config.imemCap) : MachineInv ((hostReset s).setImem program) := by
  have hstacks : StacksFit ((hostReset s).setImem program) := ⟨withinCap_nil _, withinCap_nil _, withinCap_nil _⟩
  have hprogram : ProgramFits ((hostReset s).setImem program) := ⟨hfits, Config.imemCap_le hwf⟩
  exact ⟨hstacks, hprogram, reset_mem_wf, by simp [EntriesAreFuns]⟩

/-- Nothing is in the function table yet. -/
theorem entriesInTextOrder_launched (program : List Word) (s : State) :
    EntriesInTextOrder ((hostReset s).setImem program) := by
  simp [EntriesInTextOrder]

/-- `ip` is 0, and no stack holds a Word that could be loaded into it. -/
theorem pointersBelowWrap_launched (program : List Word) (s : State) :
    PointersBelowWrap ((hostReset s).setImem program) := by
  simp [PointersBelowWrap]

/-- Settles O47: a launch answers the reset state with the program installed, and that state meets each invariant. -/
theorem launchMeetsMachineInvariant : Obligations.LaunchMeetsMachineInvariant := by
  intro s t program hwf hlaunch
  obtain ⟨hfits, rfl⟩ := hostRead_eq_next hlaunch
  exact ⟨machineInv_launched hwf hfits, entriesInTextOrder_launched program s, pointersBelowWrap_launched program s⟩

/-! ## `steps(n)` -/

theorem hostSteps_add_of_next {m : Nat} {s t : State} (n : Nat) (h : hostSteps m s = .next t) :
    hostSteps (m + n) s = hostSteps n t := by
  induction m generalizing s with
  | zero =>
    cases h
    rw [Nat.zero_add]
  | succ m ih =>
    rw [Nat.add_right_comm]
    obtain ⟨u, hstep⟩ | ⟨f, hstep⟩ := step_next_or_fault s
    · rw [hostSteps_succ_of_next _ hstep] at h ⊢
      exact ih h
    · cases (hostSteps_succ_of_fault m hstep).symm.trans h

theorem hostSteps_add_of_fault {m : Nat} {s : State} {f : Fault} (n : Nat) (h : hostSteps m s = .fault f) :
    hostSteps (m + n) s = .fault f := by
  induction m generalizing s with
  | zero => cases h
  | succ m ih =>
    rw [Nat.add_right_comm]
    obtain ⟨u, hstep⟩ | ⟨g, hstep⟩ := step_next_or_fault s
    · rw [hostSteps_succ_of_next _ hstep] at h ⊢
      exact ih h
    · rw [hostSteps_succ_of_fault _ hstep] at h ⊢
      exact h

/-- Settles O53, by induction on the first block of steps, for each way it can end. -/
theorem stepsCompose : Obligations.StepsCompose := fun _ n _ =>
  ⟨fun _ => hostSteps_add_of_next n, fun _ => hostSteps_add_of_fault n⟩

/-! ## `run` -/

theorem hostRun_succ_of_next {s t : State} (n : Nat) (h : step s = .next t) : hostRun (n + 1) s = hostRun n t := by
  simp [hostRun, h]

theorem hostRun_succ_of_fault {s : State} {f : Fault} (n : Nat) (h : step s = .fault f) : hostRun (n + 1) s = some f := by
  simp [hostRun, h]

/-- After `k` steps that were all `Ok`, the next step from `s` raises `f`. -/
def RaisesAfter (s : State) (k : Nat) (f : Fault) : Prop := ∃ t, hostSteps k s = .next t ∧ step t = .fault f

namespace RaisesAfter

variable {s t : State} {f g : Fault} {k : Nat}

theorem zero_iff : RaisesAfter s 0 f ↔ step s = .fault f := by
  simp [RaisesAfter]

theorem succ_iff_of_next (h : step s = .next t) : RaisesAfter s (k + 1) f ↔ RaisesAfter t k f := by
  simp only [RaisesAfter, hostSteps_succ_of_next k h]

theorem not_succ_of_fault (h : step s = .fault g) : ¬ RaisesAfter s (k + 1) f := by
  simp [RaisesAfter, hostSteps_succ_of_fault k h]

end RaisesAfter

/-- By induction on the fuel: the first step raises and is the answer, or it is `Ok` and the rest of the run answers. -/
theorem hostRun_eq_some_iff {n : Nat} {s : State} {f : Fault} : hostRun n s = some f ↔ ∃ k < n, RaisesAfter s k f := by
  induction n generalizing s with
  | zero => simp [hostRun]
  | succ n ih =>
    rw [Nat.exists_lt_succ_left, RaisesAfter.zero_iff]
    obtain ⟨t, hstep⟩ | ⟨g, hstep⟩ := step_next_or_fault s
    · simp [hostRun_succ_of_next n hstep, ih, hstep, RaisesAfter.succ_iff_of_next hstep]
    · simp [hostRun_succ_of_fault n hstep, hstep, RaisesAfter.not_succ_of_fault hstep]

/-- Settles O54; `RaisesAfter` is what the obligation says of `k`. -/
theorem runAnswersTheFirstFailure : Obligations.RunAnswersTheFirstFailure := fun _ _ _ => hostRun_eq_some_iff

end Sys2Proof.Machine
end
